-- ==== Sys2Proof/Word.lean ====
section
/-! DEFINITION. The word types of the SCAsm core (00_scope.md R4): the widths are the manual's own, so they are fixed in
the types. Everything a value of these types is computed with beyond `+`, `-` and the bitwise operations stands in
Decode.lean or under Machine/. -/

namespace Sys2Proof

/-- A 16-bit word: a register, a data word, an instruction word, the program counter, a word address (R4 `XLEN`, `ILEN`,
R23). -/
abbrev Word := BitVec 16

/-- A byte of the external view of data memory (R40). -/
abbrev Byte := BitVec 8

/-- The 7-bit opcode field `op` (R60). -/
abbrev Opcode := BitVec 7

/-- One of the 3-bit fields `da`, `aa`, `ba` (R60). -/
abbrev Field3 := BitVec 3

/-- A general register number, `r0` to `r7` (R20). -/
abbrev Reg := Fin 8

end Sys2Proof
end

