-- ==== Sys2Proof/Config.lean ====
section
/-! DEFINITION. What is fixed for one machine: the sizes the source fixes (00_scope.md R4) and the TYPES of the parameters
it leaves open (R5). The VALUES of the open parameters stand where they are used: `OPCODE_MAP` and `JMP_FIELD` in
Decode.lean, the three flag classes in Machine/Flags.lean. -/

namespace Sys2Proof

/-- `PM_MAX`, the largest program memory, in words (R4). -/
def Config.programWordsMax : Nat := 65536

/-- `DM_WORDS`, the size of data memory in words (R4). -/
def Config.dataWords : Nat := 65536

/-- The size of data memory in the external byte view (R4, R40). -/
def Config.dataBytes : Nat := 131072

/-- The closed list of 19 mnemonics, in the source's order (R66). -/
inductive Mnemonic where
  | mova | inc | add | sub | dec | and | or | xor | not | movb | shr | shl | ldi | adi | ld | st | brz | brn | jmp
  deriving DecidableEq, Repr

/-- The 19 mnemonics as a list, in the order of R66. -/
def Mnemonic.all : List Mnemonic :=
  [.mova, .inc, .add, .sub, .dec, .and, .or, .xor, .not, .movb, .shr, .shl, .ldi, .adi, .ld, .st, .brz, .brn, .jmp]

/-- The name of an operand field of the instruction word (R60). -/
inductive FieldName where
  | da | aa | ba
  deriving DecidableEq, Repr

/-- The two flag classes of R27: `compute` sets `N` and `Z` from the result and clears `V` and `C`; `clear` clears all
four. -/
inductive FlagClass where
  | compute | clear
  deriving DecidableEq, Repr

/-- The two encoding parameters of R5: `OPCODE_MAP` and `JMP_FIELD`. The decoder and the encoder are written for any
value of them; Decode.lean's `encoding` is the value this machine has. -/
structure Encoding where
  opcode   : Mnemonic → Opcode
  jmpField : FieldName

/-- The encodings that are consistent with the source (92_eei_decisions.md D2): an injective opcode map with `ldi` at
0x4C. -/
def Encoding.Admissible (e : Encoding) : Prop :=
  (∀ m n, e.opcode m = e.opcode n → m = n) ∧ e.opcode .ldi = 0x4C

end Sys2Proof
end

