-- ==== Sys2Proof/Syntax.lean ====
section
/-! DEFINITION. The instructions of the SCAsm core, one constructor per row of spec/opcode_table.json (30_encoding.md
R66), with the operands of R61's forms. Operands stand in the order of the assembly text (R76). A field an instruction
does not use (R65) has no operand. -/

namespace Sys2Proof

/-- The 19 instructions (R66). `rd` is the register of field `da`, `ra` that of `aa`, `rb` that of `ba`. `imm` is the small
immediate, 0 to 7 (R64), and `off` the signed branch offset, -32 to 31 (R63): WellFormed.lean checks both ranges. -/
inductive Instr where
  | mova (rd ra : Reg)
  | inc (rd ra : Reg)
  | add (rd ra rb : Reg)
  | sub (rd ra rb : Reg)
  | dec (rd ra : Reg)
  | and (rd ra rb : Reg)
  | or (rd ra rb : Reg)
  | xor (rd ra rb : Reg)
  | not (rd ra : Reg)
  | movb (rd rb : Reg)
  | shr (rd rb : Reg)
  | shl (rd rb : Reg)
  | ldi (rd : Reg) (imm : Nat)
  | adi (rd ra : Reg) (imm : Nat)
  | ld (rd ra : Reg)
  | st (ra rb : Reg)
  | brz (ra : Reg) (off : Int)
  | brn (ra : Reg) (off : Int)
  | jmp (ra : Reg)
  deriving DecidableEq, Repr

end Sys2Proof
end

