-- ==== Sys2Proof/WellFormed.lean ====
section
/-! DEFINITION. Which instruction terms the instruction word can carry: the ranges "callers must validate before calling"
`Encode` (30_encoding.md R71). A register number is in range by its type. -/

namespace Sys2Proof

/-- A small immediate is 0 to 7 (R64). -/
def immediateInRange (imm : Nat) : Bool := decide (imm ≤ 7)

/-- A branch offset is -32 to 31 (R63). -/
def offsetInRange (off : Int) : Bool := decide (-32 ≤ off ∧ off ≤ 31)

/-- The operands of the instruction fit the fields of its form (R61, R63, R64). -/
def Instr.wellFormed : Instr → Bool
  | .mova _ _ => true
  | .inc _ _ => true
  | .add _ _ _ => true
  | .sub _ _ _ => true
  | .dec _ _ => true
  | .and _ _ _ => true
  | .or _ _ _ => true
  | .xor _ _ _ => true
  | .not _ _ => true
  | .movb _ _ => true
  | .shr _ _ => true
  | .shl _ _ => true
  | .ldi _ imm => immediateInRange imm
  | .adi _ _ imm => immediateInRange imm
  | .ld _ _ => true
  | .st _ _ => true
  | .brz _ off => offsetInRange off
  | .brn _ off => offsetInRange off
  | .jmp _ => true

end Sys2Proof
end

