-- ==== Sys2Proof/Decode.lean ====
section
/-! DEFINITION. The instruction decoder (30_encoding.md R60 to R73) and, after it, the encoder. Program memory holds
16-bit words and has no byte view (R42), so decoding starts from a word; it is total on all 65536 words and rejects a word
whose opcode names no instruction by that opcode (R68). Decoder and encoder are written for any `Encoding` (R5, R67:
"a model keeps it as a table it can be instantiated with") and instantiated at the default one. -/

namespace Sys2Proof

/-! ## The fields of the word -/

/-- The four fields of an instruction word (R60). -/
structure Fields where
  op : Opcode
  da : Field3
  aa : Field3
  ba : Field3
  deriving DecidableEq, Repr

/-- `Decode(w)` of R62: `op = w[15:9]`, `da = w[8:6]`, `aa = w[5:3]`, `ba = w[2:0]`. -/
def Fields.ofWord (w : Word) : Fields :=
  { op := w.extractLsb' 9 7, da := w.extractLsb' 6 3, aa := w.extractLsb' 3 3, ba := w.extractLsb' 0 3 }

/-- The word with the given fields, `{op, da, aa, ba}` (R60, R71). -/
def Fields.toWord (f : Fields) : Word := f.op ++ f.da ++ f.aa ++ f.ba

/-- `Encode(op, da, aa, ba)` of R71 on integers: each field is reduced to its width. -/
def encodeFields (op da aa ba : Nat) : Word :=
  Fields.toWord { op := BitVec.ofNat 7 op, da := BitVec.ofNat 3 da, aa := BitVec.ofNat 3 aa, ba := BitVec.ofNat 3 ba }

/-- The register a 3-bit field selects (R20). -/
def regOfField (f : Field3) : Reg := f.toFin

/-- The 3-bit field that selects a register (R20). -/
def fieldOfReg (r : Reg) : Field3 := BitVec.ofFin r

/-- The value of a named operand field. -/
def Fields.get (f : Fields) : FieldName → Field3
  | .da => f.da
  | .aa => f.aa
  | .ba => f.ba

/-- `DecodeBranchOffset(da, ba)` of R63: the 6-bit value `{da, ba}` as a signed number. -/
def branchOffset (da ba : Field3) : Int := (da ++ ba : BitVec 6).toInt

/-- The 6-bit field value of a branch offset, `off mod 64` (R71). -/
def offsetBits (off : Int) : BitVec 6 := BitVec.ofInt 6 off

/-! ## The opcode map -/

/-- The default `OPCODE_MAP` of R67. PRESUMED (log entry 1): only `ldi` = 0x4C is in the source, the other eighteen
numbers are the spec's general knowledge (92_eei_decisions.md D2, 93_implementation_defined.md G1). -/
def opcodeOf : Mnemonic → Opcode
  | .mova => 0x00
  | .inc  => 0x01
  | .add  => 0x02
  | .sub  => 0x05
  | .dec  => 0x06
  | .and  => 0x08
  | .or   => 0x09
  | .xor  => 0x0A
  | .not  => 0x0B
  | .movb => 0x0C
  | .shr  => 0x0D
  | .shl  => 0x0E
  | .ldi  => 0x4C
  | .adi  => 0x42
  | .ld   => 0x10
  | .st   => 0x20
  | .brz  => 0x60
  | .brn  => 0x61
  | .jmp  => 0x70

/-- The field that names `jmp`'s register (R61, R153). UNVERIFIED (log entry 2): the source does not say which
(92_eei_decisions.md D3). -/
def jmpField : FieldName := .aa

/-- The encoding of this machine: the default parameters of R5. -/
def encoding : Encoding := { opcode := opcodeOf, jmpField := jmpField }

/-- The instruction an opcode names, if any (R68). -/
def Encoding.mnemonicOf? (e : Encoding) (op : Opcode) : Option Mnemonic :=
  Mnemonic.all.find? fun m => decide (e.opcode m = op)

/-! ## Decoding -/

/-- Why a word is no instruction. -/
inductive DecodeReject where
  /-- The opcode is one that `OPCODE_MAP` assigns to no mnemonic (R68). Executing the word raises the fault of R160; the
  opcode is what the fault reports (R161). -/
  | unrecognizedOpcode (op : Opcode)
  deriving DecidableEq, Repr

/-- The instruction that a mnemonic's form reads from the fields (R61). Fields the form does not list are ignored (R65;
UNVERIFIED, log entry 7). -/
def Instr.ofFields (jf : FieldName) (m : Mnemonic) (f : Fields) : Instr :=
  let rd := regOfField f.da
  let ra := regOfField f.aa
  let rb := regOfField f.ba
  match m with
  | .mova => .mova rd ra
  | .inc  => .inc rd ra
  | .add  => .add rd ra rb
  | .sub  => .sub rd ra rb
  | .dec  => .dec rd ra
  | .and  => .and rd ra rb
  | .or   => .or rd ra rb
  | .xor  => .xor rd ra rb
  | .not  => .not rd ra
  | .movb => .movb rd rb
  | .shr  => .shr rd rb
  | .shl  => .shl rd rb
  | .ldi  => .ldi rd f.ba.toNat
  | .adi  => .adi rd ra f.ba.toNat
  | .ld   => .ld rd ra
  | .st   => .st ra rb
  | .brz  => .brz ra (branchOffset f.da f.ba)
  | .brn  => .brn ra (branchOffset f.da f.ba)
  | .jmp  => .jmp (regOfField (f.get jf))

/-- The decoder, for any encoding: the fields of R62, the opcode check of R68, the operands of R61. -/
def decodeWith (e : Encoding) (w : Word) : Except DecodeReject Instr :=
  match e.mnemonicOf? (Fields.ofWord w).op with
  | some m => .ok (Instr.ofFields e.jmpField m (Fields.ofWord w))
  | none => .error (.unrecognizedOpcode (Fields.ofWord w).op)

/-- The decoder of this machine. -/
def decode (w : Word) : Except DecodeReject Instr := decodeWith encoding w

/-! ## Encoding -/

/-- The mnemonic of an instruction (R66). -/
def Instr.mnemonic : Instr → Mnemonic
  | .mova _ _ => .mova
  | .inc _ _ => .inc
  | .add _ _ _ => .add
  | .sub _ _ _ => .sub
  | .dec _ _ => .dec
  | .and _ _ _ => .and
  | .or _ _ _ => .or
  | .xor _ _ _ => .xor
  | .not _ _ => .not
  | .movb _ _ => .movb
  | .shr _ _ => .shr
  | .shl _ _ => .shl
  | .ldi _ _ => .ldi
  | .adi _ _ _ => .adi
  | .ld _ _ => .ld
  | .st _ _ => .st
  | .brz _ _ => .brz
  | .brn _ _ => .brn
  | .jmp _ => .jmp

/-- The fields of a branch: the tested register in `aa`, the offset in `{da, ba}` (R61, R71). -/
def branchFields (op : Opcode) (ra : Reg) (off : Int) : Fields :=
  { op := op, da := (offsetBits off).extractLsb' 3 3, aa := fieldOfReg ra, ba := (offsetBits off).extractLsb' 0 3 }

/-- The fields of a jump: the target register in the field `jf`, 0 elsewhere (R61, R65). -/
def jumpFields (jf : FieldName) (op : Opcode) (ra : Reg) : Fields :=
  match jf with
  | .da => { op := op, da := fieldOfReg ra, aa := 0, ba := 0 }
  | .aa => { op := op, da := 0, aa := fieldOfReg ra, ba := 0 }
  | .ba => { op := op, da := 0, aa := 0, ba := fieldOfReg ra }

/-- The fields of an instruction with opcode `op`: its operands where R61 puts them, 0 in the fields its form does not use
(R65). An immediate or an offset term outside its range is reduced to the field (DESIGN CHOICE, log entry 18). -/
def Instr.toFields (jf : FieldName) (op : Opcode) : Instr → Fields
  | .mova rd ra => { op := op, da := fieldOfReg rd, aa := fieldOfReg ra, ba := 0 }
  | .inc rd ra => { op := op, da := fieldOfReg rd, aa := fieldOfReg ra, ba := 0 }
  | .add rd ra rb => { op := op, da := fieldOfReg rd, aa := fieldOfReg ra, ba := fieldOfReg rb }
  | .sub rd ra rb => { op := op, da := fieldOfReg rd, aa := fieldOfReg ra, ba := fieldOfReg rb }
  | .dec rd ra => { op := op, da := fieldOfReg rd, aa := fieldOfReg ra, ba := 0 }
  | .and rd ra rb => { op := op, da := fieldOfReg rd, aa := fieldOfReg ra, ba := fieldOfReg rb }
  | .or rd ra rb => { op := op, da := fieldOfReg rd, aa := fieldOfReg ra, ba := fieldOfReg rb }
  | .xor rd ra rb => { op := op, da := fieldOfReg rd, aa := fieldOfReg ra, ba := fieldOfReg rb }
  | .not rd ra => { op := op, da := fieldOfReg rd, aa := fieldOfReg ra, ba := 0 }
  | .movb rd rb => { op := op, da := fieldOfReg rd, aa := 0, ba := fieldOfReg rb }
  | .shr rd rb => { op := op, da := fieldOfReg rd, aa := 0, ba := fieldOfReg rb }
  | .shl rd rb => { op := op, da := fieldOfReg rd, aa := 0, ba := fieldOfReg rb }
  | .ldi rd imm => { op := op, da := fieldOfReg rd, aa := 0, ba := BitVec.ofNat 3 imm }
  | .adi rd ra imm => { op := op, da := fieldOfReg rd, aa := fieldOfReg ra, ba := BitVec.ofNat 3 imm }
  | .ld rd ra => { op := op, da := fieldOfReg rd, aa := fieldOfReg ra, ba := 0 }
  | .st ra rb => { op := op, da := 0, aa := fieldOfReg ra, ba := fieldOfReg rb }
  | .brz ra off => branchFields op ra off
  | .brn ra off => branchFields op ra off
  | .jmp ra => jumpFields jf op ra

/-- The encoder, for any encoding (R67, R71). -/
def encodeWith (e : Encoding) (i : Instr) : Word := (i.toFields e.jmpField (e.opcode i.mnemonic)).toWord

/-- The encoder of this machine: the one word of an instruction. -/
def encode (i : Instr) : Word := encodeWith encoding i

/-- The host's reading of the opcode table: the instruction the decoder reads from the word whose low `nbits` bits are `w`,
the bits above them 0 (an instruction is one 16-bit word, R70, and a fetch returns it whole, R42). -/
def decodeTableWord (nbits w : Nat) : Option Instr :=
  match decode (BitVec.ofNat 16 (w % 2 ^ nbits)) with
  | .ok i => some i
  | .error _ => none

end Sys2Proof
end

