-- ==== Sys2Proof/Machine/State.lean ====
section
/-! DEFINITION. The state of the SCAsm core and its two memories (10_state.md), the reasons a step can stop, and the state
after reset. Plain data. -/

namespace Sys2Proof.Machine

/-- Data memory in its byte view `DB[0 .. 131071]` (R40): the bytes that differ from what an unlisted address reads as,
addresses strictly rising (`Memory.wf`, Machine/Ops.lean). -/
abbrev Memory := List Host.Cell

/-- The four condition flags (R26). -/
structure Flags where
  v : Bool
  c : Bool
  n : Bool
  z : Bool
  deriving DecidableEq, Repr

/-- The core's status output `run_state` (R29). -/
inductive RunState where
  | idle | running | halted
  deriving DecidableEq, Repr

/-- Everything the spec gives the machine (10_state.md section 1). `prog_len` is the length of `pm`: program memory is the
words loaded, addresses 0 to `prog_len - 1` without gaps, and words at or beyond `prog_len` do not exist (R32, R48, U12). -/
structure State where
  /-- The general registers `x[0]` to `x[7]` (R20). -/
  x : Vector Word 8
  /-- The program counter, a word address of program memory (R23). -/
  pc : Word
  /-- The flags `V`, `C`, `N`, `Z` (R26). -/
  flags : Flags
  /-- `run_state` (R29). -/
  runState : RunState
  /-- Program memory `PM[0 .. prog_len-1]` (R32). -/
  pm : List Word
  /-- Data memory in its byte view (R33, R40). -/
  dm : Memory
  deriving DecidableEq, Repr

/-- `prog_len`, the number of program words loaded (R32). -/
def State.progLen (s : State) : Nat := s.pm.length

/-- Why the machine stops with a fault. -/
inductive Fault where
  /-- `IllegalOpcode(op)`, the only exception of the core (R160): the word fetched at `pc` has an opcode that names no
  instruction. Raised by `step` (Machine/Ops.lean `raiseIllegalOpcode`), by no instruction. Safe: the hardware stops too,
  with `x`, `pc`, the flags and data memory as they were, and reports this opcode. -/
  | illegalOpcode (op : Opcode)
  deriving DecidableEq, Repr

/-- Why the model gives an instruction no meaning. -/
inductive Refusal where
  /-- An instruction whose meaning is not written. Raised by no arm of `exec`: every instruction of the table has its
  meaning. Safe: nothing can be proved of a run that a refusal ends. -/
  | notModelled (mnemonic : String)
  deriving DecidableEq, Repr

/-- The machine right after reset (R35, R180): registers, flags and `pc` are 0 and `run_state` is `idle`. Reset keeps both
memories, whose contents the environment supplies; this state is the one with no program loaded (`prog_len` = 0) and no
data byte listed (DESIGN CHOICE, log entries 12 and 13). -/
def State.reset : State :=
  { x := Vector.replicate 8 0
    pc := 0
    flags := { v := false, c := false, n := false, z := false }
    runState := .idle
    pm := []
    dm := [] }

end Sys2Proof.Machine
end

