-- ==== Sys2Proof/Machine/Flags.lean ====
section
/-! DEFINITION. The condition flags (10_state.md R26 to R28): the flag class of every instruction and what each class
writes. -/

namespace Sys2Proof.Machine

/-- All four flags 0. -/
def Flags.cleared : Flags := { v := false, c := false, n := false, z := false }

/-- `(0, 0, r[15], r == 0)` for the 16-bit result `r` written to `x[da]` (R26, R27). `V` and `C` are never set. UNVERIFIED
(log entry 4): the flags are taken from the truncated result (92_eei_decisions.md D5). -/
def Flags.ofResult (r : Word) : Flags := { v := false, c := false, n := r.msb, z := decide (r = 0) }

/-- What an instruction of a flag class writes, given its result (R27). -/
def flagsFor (k : FlagClass) (r : Word) : Flags :=
  match k with
  | .compute => Flags.ofResult r
  | .clear => Flags.cleared

/-- The flag class of each instruction, the table of R27. The rows of `inc`, `ldi` and `adi` are the parameters
`INC_FLAG_CLASS`, `LDI_FLAG_CLASS` and `ADI_FLAG_CLASS` (UNVERIFIED, log entry 5; 92_eei_decisions.md D6). -/
def flagClassOf : Mnemonic → FlagClass
  | .mova => .clear
  | .inc  => .clear
  | .add  => .compute
  | .sub  => .compute
  | .dec  => .compute
  | .and  => .compute
  | .or   => .compute
  | .xor  => .compute
  | .not  => .compute
  | .movb => .clear
  | .shr  => .clear
  | .shl  => .clear
  | .ldi  => .clear
  | .adi  => .compute
  | .ld   => .clear
  | .st   => .clear
  | .brz  => .clear
  | .brn  => .clear
  | .jmp  => .clear

end Sys2Proof.Machine
end

