-- ==== Sys2Proof/Machine/Ops.lean ====
section
/-! DEFINITION. The named operations over the state: registers, data memory and program memory, the commit that ends every
executed instruction, and the two ways a step ends without executing one. -/

namespace Sys2Proof.Machine

/-! ## Registers (R20, R21) -/

/-- `x[r]`: read of a general register. No register is hard-wired (R21). -/
def State.read (s : State) (r : Reg) : Word := s.x[r]

/-- The register file after `x[r] <- v`. -/
def writeReg (x : Vector Word 8) (r : Reg) (v : Word) : Vector Word 8 := x.set r v

/-! ## Data memory (20_memory.md) -/

/-- What a byte of data memory that is not listed reads as. DESIGN CHOICE (log entry 12): every content of the 131072 bytes
has one list, so the value is only that of the one launch memory in which nothing is listed. -/
def Memory.unlistedByte : Byte := 0

/-- `DB[k]` (R40). -/
def Memory.readByte : Memory → Nat → Byte
  | [], _ => Memory.unlistedByte
  | (a, v) :: rest, k => if a = k then v else Memory.readByte rest k

/-- The cell `(k, v)` before the cells of `rest`, left out where an unlisted address reads the same. -/
def Memory.cell (k : Nat) (v : Byte) (rest : Memory) : Memory :=
  if v = Memory.unlistedByte then rest else (k, v) :: rest

/-- `DB[k] <- v`. -/
def Memory.writeByte : Memory → Nat → Byte → Memory
  | [], k, v => Memory.cell k v []
  | (a, b) :: rest, k, v =>
    if k < a then Memory.cell k v ((a, b) :: rest)
    else if k = a then Memory.cell k v rest
    else (a, b) :: Memory.writeByte rest k v

/-- The canonical form: addresses strictly rising, inside the byte view, and no byte listed that an unlisted address reads
as. -/
abbrev Memory.wf (m : Memory) : Prop :=
  m.Pairwise (fun c d => c.1 < d.1) ∧ ∀ c ∈ m, c.1 < Config.dataBytes ∧ c.2 ≠ Memory.unlistedByte

/-- The byte address of the high byte of data word `a`: `2a` (R40). -/
def highByteAddr (a : Word) : Nat := 2 * a.toNat

/-- The byte address of the low byte of data word `a`: `2a + 1` (R40). -/
def lowByteAddr (a : Word) : Nat := 2 * a.toNat + 1

/-- `v[15:8]`. -/
def highByte (v : Word) : Byte := v.extractLsb' 8 8

/-- `v[7:0]`. -/
def lowByte (v : Word) : Byte := v.extractLsb' 0 8

/-- `MemRead(a, 2)` = `{DB[2a], DB[2a+1]}` = `DM[a]` (R44). -/
def Memory.readWord (m : Memory) (a : Word) : Word :=
  m.readByte (highByteAddr a) ++ m.readByte (lowByteAddr a)

/-- `MemWrite(a, 2, v)`: `DB[2a] <- v[15:8]`, `DB[2a+1] <- v[7:0]` (R45). -/
def Memory.writeWord (m : Memory) (a v : Word) : Memory :=
  (m.writeByte (highByteAddr a) (highByte v)).writeByte (lowByteAddr a) (lowByte v)

/-! ## Fetch (R43, R91, R92) -/

/-- The end-of-program check and the fetch of R90 steps 1 and 2: no word where `pc >= prog_len`, else `PM[pc]`. -/
def State.fetch (s : State) : Option Word := s.pm[s.pc.toNat]?

/-! ## What an executed instruction does (R95, R96) -/

/-- What an instruction gives (R95, R90 step 5): the register write, if any; the flag write, always; the store, if any; and
the target of a taken branch or jump. -/
structure Effect where
  dst    : Option (Reg × Word) := none
  flags  : Flags
  store  : Option (Word × Word) := none
  target : Option Word := none
  deriving DecidableEq, Repr

/-- The next `pc` (R97, R98, R99): `pc + 1` modulo 65536 (UNVERIFIED, log entry 3), the target of a taken branch, or `pc`
itself where that target is `pc`. -/
def nextPc (pc : Word) (target : Option Word) : Word :=
  match target with
  | none => pc + 1
  | some t => if t = pc then pc else t

/-- Whether the taken branch or jump targets its own address (R99). -/
def selfBranch (pc : Word) (target : Option Word) : Bool := decide (target = some pc)

/-- `run_state` after an executed instruction (R90 step 7; UNVERIFIED, log entry 8). -/
def nextRunState (pc : Word) (target : Option Word) : RunState :=
  if selfBranch pc target then .halted else .running

/-- The end of a step that executed an instruction: all its writes at once, every one computed from the state before the
step (R96). -/
def commit (e : Effect) (s : State) : State :=
  { s with
    x := match e.dst with
      | some (d, v) => writeReg s.x d v
      | none => s.x
    dm := match e.store with
      | some (a, v) => s.dm.writeWord a v
      | none => s.dm
    flags := e.flags
    pc := nextPc s.pc e.target
    runState := nextRunState s.pc e.target }

/-- An instruction that writes the result `r` to `x[d]` and takes no branch, with flag class `k`. -/
def execResult (k : FlagClass) (d : Reg) (r : Word) (s : State) : Host.Outcome State Fault Refusal :=
  .next (commit { dst := some (d, r), flags := flagsFor k r } s)

/-! ## The ends of a step that executes nothing -/

/-- `EndOfProgram` (R91): no effect but `run_state <- halted` (90_conflicts.md C9). -/
def endOfProgram (s : State) : State := { s with runState := .halted }

/-- The state an `IllegalOpcode` fault leaves: `run_state <- halted` and nothing else (R94, R160). -/
def faultedState (s : State) : State := { s with runState := .halted }

/-- `raise IllegalOpcode(op)` (R94, R160, R161): the core has no trap entry (R166); the step ends in the fault, which reports
the opcode. `faultedState` is the state it leaves for the environment (UNVERIFIED, log entry 9). -/
def raiseIllegalOpcode (op : Opcode) (_s : State) : Host.Outcome State Fault Refusal := .fault (.illegalOpcode op)

end Sys2Proof.Machine
end

