-- ==== Sys2Proof/Machine/Operands.lean ====
section
/-! DEFINITION. The operand forms beyond a plain register: the small immediate (R64), the register-indirect data address
(43_load_store.md R142) and the branch-offset adder (44_control_transfer.md R152). -/

namespace Sys2Proof.Machine

/-- `zext_16(ba)`: the 3-bit immediate field, zero-extended (R64). A term above 7 is cut to the field (DESIGN CHOICE, log entry
18). -/
def immediate (imm : Nat) : Word := (BitVec.ofNat 3 imm).setWidth 16

/-- The data word address of `ld` and `st`: the content of the address register, as it is (R140, R141, R142). -/
def dataAddress (ra : Reg) (s : State) : Word := s.read ra

/-- `sext_16(off)`: the 6-bit offset field, sign-extended (R8, R152). A term outside -32 to 31 is cut to the field (DESIGN CHOICE,
log entry 18). -/
def offsetWord (off : Int) : Word := (offsetBits off).signExtend 16

/-- The branch-offset adder: `(pc + sext_16(off)) mod 65536`, `pc` the branch's own address (R152, 90_conflicts.md C2; the
wrap is UNVERIFIED, log entry 3). -/
def branchTarget (off : Int) (s : State) : Word := s.pc + offsetWord off

end Sys2Proof.Machine
end

