-- ==== Sys2Proof/Machine/Control.lean ====
section
/-! DEFINITION. Control transfer (44_control_transfer.md). Each instruction gives the target it takes, if any; `commit`
resolves `pc` from it (R97 to R99). -/

namespace Sys2Proof.Machine

/-- The target `brz rA,off` takes: `x[aa] == 0` is the condition (R150). -/
def brzTarget (ra : Reg) (off : Int) (s : State) : Option Word :=
  if s.read ra = 0 then some (branchTarget off s) else none

/-- The target `brn rA,off` takes: `x[aa][15] == 1` is the condition (R151). -/
def brnTarget (ra : Reg) (off : Int) (s : State) : Option Word :=
  if (s.read ra).msb then some (branchTarget off s) else none

/-- The target `jmp rA` takes: always, the full `x[aa]` (R153). -/
def jmpTarget (ra : Reg) (s : State) : Option Word := some (s.read ra)

/-- `brz rA,off` (R150). -/
def execBrz (ra : Reg) (off : Int) (s : State) : Host.Outcome State Fault Refusal :=
  .next (commit { flags := flagsFor (flagClassOf .brz) 0, target := brzTarget ra off s } s)

/-- `brn rA,off` (R151). -/
def execBrn (ra : Reg) (off : Int) (s : State) : Host.Outcome State Fault Refusal :=
  .next (commit { flags := flagsFor (flagClassOf .brn) 0, target := brnTarget ra off s } s)

/-- `jmp rA` (R153). -/
def execJmp (ra : Reg) (s : State) : Host.Outcome State Fault Refusal :=
  .next (commit { flags := flagsFor (flagClassOf .jmp) 0, target := jmpTarget ra s } s)

/-- The pair `(taken, target)` of R95, as the target taken, if any: only `brz` and `brn` when their condition holds, and
`jmp` always. -/
def takenTarget (i : Instr) (s : State) : Option Word :=
  match i with
  | .mova _ _ => none
  | .inc _ _ => none
  | .add _ _ _ => none
  | .sub _ _ _ => none
  | .dec _ _ => none
  | .and _ _ _ => none
  | .or _ _ _ => none
  | .xor _ _ _ => none
  | .not _ _ => none
  | .movb _ _ => none
  | .shr _ _ => none
  | .shl _ _ => none
  | .ldi _ _ => none
  | .adi _ _ _ => none
  | .ld _ _ => none
  | .st _ _ => none
  | .brz ra off => brzTarget ra off s
  | .brn ra off => brnTarget ra off s
  | .jmp ra => jmpTarget ra s

end Sys2Proof.Machine
end

