-- ==== Sys2Proof/Machine/Immediate.lean ====
section
/-! DEFINITION. The two immediate instructions (42_immediate.md). The immediate is the field itself and is never looked up
in the register file (R132). -/

namespace Sys2Proof.Machine

/-- `ldi rD,imm` (R130): `x[da] <- zext_16(ba)`. -/
def execLdi (rd : Reg) (imm : Nat) (s : State) : Host.Outcome State Fault Refusal :=
  execResult (flagClassOf .ldi) rd (immediate imm) s

/-- `adi rD,rA,imm` (R131): `x[da] <- x[aa] + zext_16(ba)`. -/
def execAdi (rd ra : Reg) (imm : Nat) (s : State) : Host.Outcome State Fault Refusal :=
  execResult (flagClassOf .adi) rd (s.read ra + immediate imm) s

end Sys2Proof.Machine
end

