-- ==== Sys2Proof/Machine/LoadStore.lean ====
section
/-! DEFINITION. Load and store (43_load_store.md): one 16-bit access at the word address in `x[aa]`. No address faults
(R140, R141). -/

namespace Sys2Proof.Machine

/-- `ld rD,rA` (R140): `x[da] <- MemRead(x[aa], 2)`. -/
def execLd (rd ra : Reg) (s : State) : Host.Outcome State Fault Refusal :=
  execResult (flagClassOf .ld) rd (s.dm.readWord (dataAddress ra s)) s

/-- `st rA,rB` (R141): `MemWrite(x[aa], 2, x[ba])`; no register is written (90_conflicts.md C7). -/
def execSt (ra rb : Reg) (s : State) : Host.Outcome State Fault Refusal :=
  .next (commit { flags := flagsFor (flagClassOf .st) 0, store := some (dataAddress ra s, s.read rb) } s)

end Sys2Proof.Machine
end

