-- ==== Sys2Proof/Machine/Register.lean ====
section
/-! DEFINITION. The twelve register instructions (41_alu_register.md). Arithmetic is modulo 65536 (R110); each writes one
register, touches no memory and takes no branch (R123). -/

namespace Sys2Proof.Machine

/-- `mova rD,rA` (R111): `x[da] <- x[aa]`. -/
def execMova (rd ra : Reg) (s : State) : Host.Outcome State Fault Refusal :=
  execResult (flagClassOf .mova) rd (s.read ra) s

/-- `inc rD,rA` (R112): `x[da] <- x[aa] + 1`. -/
def execInc (rd ra : Reg) (s : State) : Host.Outcome State Fault Refusal :=
  execResult (flagClassOf .inc) rd (s.read ra + 1) s

/-- `add rD,rA,rB` (R113): `x[da] <- x[aa] + x[ba]`. -/
def execAdd (rd ra rb : Reg) (s : State) : Host.Outcome State Fault Refusal :=
  execResult (flagClassOf .add) rd (s.read ra + s.read rb) s

/-- `sub rD,rA,rB` (R114): `x[da] <- x[aa] - x[ba]`. -/
def execSub (rd ra rb : Reg) (s : State) : Host.Outcome State Fault Refusal :=
  execResult (flagClassOf .sub) rd (s.read ra - s.read rb) s

/-- `dec rD,rA` (R115): `x[da] <- x[aa] - 1`. -/
def execDec (rd ra : Reg) (s : State) : Host.Outcome State Fault Refusal :=
  execResult (flagClassOf .dec) rd (s.read ra - 1) s

/-- `and rD,rA,rB` (R116): `x[da] <- x[aa] & x[ba]`. -/
def execAnd (rd ra rb : Reg) (s : State) : Host.Outcome State Fault Refusal :=
  execResult (flagClassOf .and) rd (s.read ra &&& s.read rb) s

/-- `or rD,rA,rB` (R117): `x[da] <- x[aa] | x[ba]`. -/
def execOr (rd ra rb : Reg) (s : State) : Host.Outcome State Fault Refusal :=
  execResult (flagClassOf .or) rd (s.read ra ||| s.read rb) s

/-- `xor rD,rA,rB` (R118): `x[da] <- x[aa] ^ x[ba]`. -/
def execXor (rd ra rb : Reg) (s : State) : Host.Outcome State Fault Refusal :=
  execResult (flagClassOf .xor) rd (s.read ra ^^^ s.read rb) s

/-- `not rD,rA` (R119): `x[da] <- ~x[aa]`. -/
def execNot (rd ra : Reg) (s : State) : Host.Outcome State Fault Refusal :=
  execResult (flagClassOf .not) rd (~~~ s.read ra) s

/-- `movb rD,rB` (R120): `x[da] <- x[ba]`. -/
def execMovb (rd rb : Reg) (s : State) : Host.Outcome State Fault Refusal :=
  execResult (flagClassOf .movb) rd (s.read rb) s

/-- `shr rD,rB` (R121): `x[da] <- {0, x[ba][15:1]}`. The 0 is UNVERIFIED (log entry 6; 92_eei_decisions.md D7). -/
def execShr (rd rb : Reg) (s : State) : Host.Outcome State Fault Refusal :=
  execResult (flagClassOf .shr) rd (s.read rb >>> 1) s

/-- `shl rD,rB` (R122): `x[da] <- {x[ba][14:0], 0}`. The 0 is UNVERIFIED (log entry 6; 92_eei_decisions.md D7). -/
def execShl (rd rb : Reg) (s : State) : Host.Outcome State Fault Refusal :=
  execResult (flagClassOf .shl) rd (s.read rb <<< 1) s

end Sys2Proof.Machine
end

