-- ==== Sys2Proof/Machine/Dispatch.lean ====
section
/-! DEFINITION. Which meaning each instruction has: one arm per constructor of `Instr`. -/

namespace Sys2Proof.Machine

def exec (i : Instr) (s : State) : Host.Outcome State Fault Refusal :=
  match i with
  -- 41_alu_register.md
  | .mova rd ra => Sys2Proof.Machine.execMova rd ra s
  | .inc rd ra => Sys2Proof.Machine.execInc rd ra s
  | .add rd ra rb => Sys2Proof.Machine.execAdd rd ra rb s
  | .sub rd ra rb => Sys2Proof.Machine.execSub rd ra rb s
  | .dec rd ra => Sys2Proof.Machine.execDec rd ra s
  | .and rd ra rb => Sys2Proof.Machine.execAnd rd ra rb s
  | .or rd ra rb => Sys2Proof.Machine.execOr rd ra rb s
  | .xor rd ra rb => Sys2Proof.Machine.execXor rd ra rb s
  | .not rd ra => Sys2Proof.Machine.execNot rd ra s
  | .movb rd rb => Sys2Proof.Machine.execMovb rd rb s
  | .shr rd rb => Sys2Proof.Machine.execShr rd rb s
  | .shl rd rb => Sys2Proof.Machine.execShl rd rb s
  -- 42_immediate.md
  | .ldi rd imm => Sys2Proof.Machine.execLdi rd imm s
  | .adi rd ra imm => Sys2Proof.Machine.execAdi rd ra imm s
  -- 43_load_store.md
  | .ld rd ra => Sys2Proof.Machine.execLd rd ra s
  | .st ra rb => Sys2Proof.Machine.execSt ra rb s
  -- 44_control_transfer.md
  | .brz ra off => Sys2Proof.Machine.execBrz ra off s
  | .brn ra off => Sys2Proof.Machine.execBrn ra off s
  | .jmp ra => Sys2Proof.Machine.execJmp ra s

end Sys2Proof.Machine
end

