-- ==== Sys2Proof/Machine/Step.lean ====
section
/-! DEFINITION. The step (40_step_cycle.md R90): end-of-program check, fetch, decode, opcode check, execute. Resolving `pc`
and `run_state` (R90 steps 6 and 7) is part of each meaning, through `commit`. -/

namespace Sys2Proof.Machine

/-- One step request (R90). `EndOfProgram` and `SelfBranchHalt` are normal ends with a next state (R163); an unrecognized
opcode is the fault (R94). -/
def step (s : State) : Host.Outcome State Fault Refusal :=
  match s.fetch with
  | none => .next (endOfProgram s)
  | some w =>
    match decode w with
    | .ok i => exec i s
    | .error (.unrecognizedOpcode op) => raiseIllegalOpcode op s

/-- `s` with the word `w` (its low `nbits` bits) loaded as the program word at `pc`, so that the next step fetches it. This
stands for the environment's load of a program (R184; log entry 13). Where `pc` is at or past the program's end the program
is extended to reach it with words 0x0000 (program memory has no gaps, R48). -/
def State.withFetchWord (s : State) (nbits w : Nat) : State :=
  { s with
    pm := (s.pm ++ List.replicate (s.pc.toNat + 1 - s.pm.length) 0).set s.pc.toNat
      (BitVec.ofNat 16 (w % 2 ^ nbits)) }

end Sys2Proof.Machine
end

