-- ==== Sys2Proof/Machine/Requests.lean ====
section
/-! DEFINITION. What passes between the core and its environment: the step result (40_step_cycle.md R100, R101), the reset
request (70_reset_and_hazards.md R180), and the environment's own actions (00_scope.md R6, 40_step_cycle.md R103, R105). -/

namespace Sys2Proof.Machine

/-! ## The step result -/

/-- The `outcome` of a step (R101). -/
inductive StepOutcome where
  | executed | endOfProgram | selfBranchHalt | illegalOpcode
  deriving DecidableEq, Repr

/-- The step result, a record and not state (R101; log entry 15). `decoded` holds the four fields and the mnemonic. -/
structure StepResult where
  continues : Bool
  outcome   : StepOutcome
  decoded   : Option (Fields × Mnemonic)
  faultOp   : Option Opcode
  deriving DecidableEq, Repr

/-- The result of a step that executed `i`, read from `w` (R98, R99, R101). -/
def executedResult (w : Word) (i : Instr) (s : State) : StepResult :=
  let halt := selfBranch s.pc (takenTarget i s)
  { continues := !halt
    outcome := if halt then .selfBranchHalt else .executed
    decoded := some (Fields.ofWord w, i.mnemonic)
    faultOp := none }

/-- The result of the step taken from `s` (R90, R101). -/
def stepResult (s : State) : StepResult :=
  match s.fetch with
  | none => { continues := false, outcome := .endOfProgram, decoded := none, faultOp := none }
  | some w =>
    match decode w with
    | .ok i => executedResult w i s
    | .error (.unrecognizedOpcode op) =>
      { continues := false, outcome := .illegalOpcode, decoded := none, faultOp := some op }

/-- The state the environment sees after a step request, a faulting one included: `IllegalOpcode` leaves everything but
`run_state` as it was (R94, R160). -/
def stateAfter (s : State) : State :=
  match step s with
  | .next t => t
  | .fault (.illegalOpcode _) => faultedState s
  | .refused _ => s

/-! ## The memory ports, at transaction level (R55; log entry 20) -/

/-- The one access over the data-memory port (R55): a word address, the read or the write strobe, and the word that passes. -/
inductive DataAccess where
  | read (a v : Word)
  | write (a v : Word)
  deriving DecidableEq, Repr

/-- What passes over the two ports in one step: the address and the word of the fetch, and the data access (R43 to R46). -/
structure PortActivity where
  fetched : Option (Word × Word)
  data    : Option DataAccess
  deriving DecidableEq, Repr

/-- The data access of an executed instruction: only `ld` reads and only `st` writes (R140, R141). -/
def dataAccess (i : Instr) (s : State) : Option DataAccess :=
  match i with
  | .mova _ _ | .inc _ _ | .add _ _ _ | .sub _ _ _ | .dec _ _ | .and _ _ _ | .or _ _ _ | .xor _ _ _ | .not _ _
  | .movb _ _ | .shr _ _ | .shl _ _ | .ldi _ _ | .adi _ _ _ | .brz _ _ | .brn _ _ | .jmp _ => none
  | .ld _ ra => some (.read (dataAddress ra s) (s.dm.readWord (dataAddress ra s)))
  | .st ra rb => some (.write (dataAddress ra s) (s.read rb))

/-- What the next step does over the ports: no fetch at the end of the program (R91), no data access where the opcode names no
instruction (R94). -/
def portActivity (s : State) : PortActivity :=
  match s.fetch with
  | none => { fetched := none, data := none }
  | some w =>
    match decode w with
    | .ok i => { fetched := some (s.pc, w), data := dataAccess i s }
    | .error (.unrecognizedOpcode _) => { fetched := some (s.pc, w), data := none }

/-! ## Reset and the environment -/

/-- The reset request (R35, R180): registers, flags and `pc` to 0, `run_state` to `idle`, both memories kept. -/
def resetRequest (s : State) : State :=
  { s with x := Vector.replicate 8 0, pc := 0, flags := Flags.cleared, runState := .idle }

/-- The launch state of a run (R36, R184): a program and data memory put there by the environment, then a reset. -/
def launchState (program : List Word) (data : Memory) : State :=
  resetRequest { State.reset with pm := program, dm := data }

/-- The environment's write of one byte of data memory (R6, R56, R105). -/
def environmentWrite (k : Fin Config.dataBytes) (v : Byte) (s : State) : State :=
  { s with dm := s.dm.writeByte k v }

/-- The environment's load of a program, with the reset that a run begins with: the spec takes "the three together as the
launch state" (R184; DEDUCED, log entry 14), so that no move changes program memory during a run (R105). Whether a program may be
loaded while `run_state` is `running` is not stated (91_not_in_source.md N17): DESIGN CHOICE (log entry 14), the load is a move in
every `run_state` and its reset ends the run. At most 65536 words; a longer stream is no move (U16). -/
def loadProgram (program : List Word) (s : State) : Option State :=
  if program.length ≤ Config.programWordsMax then some (resetRequest { s with pm := program }) else none

/-- The moves of R105 that change state. -/
inductive Action where
  | step
  | reset
  | write (k : Fin Config.dataBytes) (v : Byte)
  | load (program : List Word)
  deriving DecidableEq, Repr

/-- The state after a move; none where the spec has no such move. Each is performed whole before the next (R103). -/
def Action.apply (a : Action) (s : State) : Option State :=
  match a with
  | .step => some (stateAfter s)
  | .reset => some (resetRequest s)
  | .write k v => some (environmentWrite k v s)
  | .load program => loadProgram program s

/-- The state after a sequence of moves. -/
def performAll : List Action → State → Option State
  | [], s => some s
  | a :: rest, s => (a.apply s).bind (performAll rest)

/-- Which request is performed where a synchronous implementation samples both: the reset, and the step is dropped (R103). -/
def arbitrate (reset step : Bool) : Option Action :=
  if reset then some .reset else if step then some .step else none

/-! ## The writes to data memory, in order (R50) -/

/-- The bytes the next step stores, in order: those of `st` (R45, R141), none for any other step. -/
def stepWrites (s : State) : List Host.Cell :=
  match s.fetch with
  | none => []
  | some w =>
    match decode w with
    | .ok (.st ra rb) =>
      [(highByteAddr (s.read ra), highByte (s.read rb)), (lowByteAddr (s.read ra), lowByte (s.read rb))]
    | _ => []

/-- The bytes a move writes to data memory, in order. -/
def Action.writes (a : Action) (s : State) : List Host.Cell :=
  match a with
  | .step => stepWrites s
  | .reset => []
  | .write k v => [(k.val, v)]
  | .load _ => []

/-- The bytes a sequence of moves writes to data memory, in order. -/
def allWrites : List Action → State → List Host.Cell
  | [], _ => []
  | a :: rest, s => a.writes s ++ (match a.apply s with
    | some t => allWrites rest t
    | none => [])

/-- The byte at `k` after the writes `ws`, where it was `v` before them: the last write to `k` counts. -/
def lastWritten (ws : List Host.Cell) (k : Nat) (v : Byte) : Byte :=
  ws.foldl (fun cur c => if c.1 = k then c.2 else cur) v

end Sys2Proof.Machine
end

