-- ==== Sys2Proof/Safety.lean ====
section
/-! DEFINITION. Runs and how they end (40_step_cycle.md R104), what counts as a safe step, and the invariant of the
machine, in the terms claims use. -/

namespace Sys2Proof

/-- The register an instruction writes, if any: the "writes" column of R22. -/
def Instr.destination : Instr → Option Reg
  | .mova rd _ => some rd
  | .inc rd _ => some rd
  | .add rd _ _ => some rd
  | .sub rd _ _ => some rd
  | .dec rd _ => some rd
  | .and rd _ _ => some rd
  | .or rd _ _ => some rd
  | .xor rd _ _ => some rd
  | .not rd _ => some rd
  | .movb rd _ => some rd
  | .shr rd _ => some rd
  | .shl rd _ => some rd
  | .ldi rd _ => some rd
  | .adi rd _ _ => some rd
  | .ld rd _ => some rd
  | .st _ _ => none
  | .brz _ _ => none
  | .brn _ _ => none
  | .jmp _ => none

/-- The registers an instruction reads: the "reads" column of R22. -/
def Instr.sources : Instr → List Reg
  | .mova _ ra => [ra]
  | .inc _ ra => [ra]
  | .add _ ra rb => [ra, rb]
  | .sub _ ra rb => [ra, rb]
  | .dec _ ra => [ra]
  | .and _ ra rb => [ra, rb]
  | .or _ ra rb => [ra, rb]
  | .xor _ ra rb => [ra, rb]
  | .not _ ra => [ra]
  | .movb _ rb => [rb]
  | .shr _ rb => [rb]
  | .shl _ rb => [rb]
  | .ldi _ _ => []
  | .adi _ ra _ => [ra]
  | .ld _ ra => [ra]
  | .st ra rb => [ra, rb]
  | .brz ra _ => [ra]
  | .brn ra _ => [ra]
  | .jmp ra => [ra]

end Sys2Proof

namespace Sys2Proof.Machine

/-- How a run stands after at most so many steps: still going, or ended with the outcome and the state of its last step
(R104). -/
inductive RunStatus where
  | going (s : State)
  | ended (outcome : StepOutcome) (s : State)
  deriving DecidableEq, Repr

/-- The premise "the environment does not write data memory during the run" (R50, D13), of the moves of a run. -/
def NoEnvironmentWrite (moves : List Action) : Prop := ∀ a ∈ moves, ∀ k v, a ≠ .write k v

/-- A run of at most `fuel` steps: steps are repeated while the result is `continues = true` (R104). Whether the environment
writes data memory during a run is open (R50, D13): DESIGN CHOICE (log entry 22), `run` carries the premise
`NoEnvironmentWrite`, no other move coming between its steps. A run with environment writes in it is a sequence of moves
(`performAll`). -/
def run : Nat → State → RunStatus
  | 0, s => .going s
  | fuel + 1, s =>
    if (stepResult s).continues then run fuel (stateAfter s)
    else .ended (stepResult s).outcome (stateAfter s)

/-- The outcomes that end a run normally (R104, R163). -/
def StepOutcome.normalEnd : StepOutcome → Bool
  | .endOfProgram => true
  | .selfBranchHalt => true
  | .executed => false
  | .illegalOpcode => false

/-- A step is safe where it does not fault: the one fault is `IllegalOpcode` (R160). -/
def StepSafe (s : State) : Prop := ∃ t, step s = .next t

/-- The invariant of the machine: at most 65536 program words (R4, R32); data memory in its canonical form
(the model's own, log entry 12); `V` and `C` never
set (R26); `N` and `Z` not both set, since one result gives both (R26, R27). -/
structure Inv (s : State) : Prop where
  program : s.progLen ≤ Config.programWordsMax
  data    : s.dm.wf
  noV     : s.flags.v = false
  noC     : s.flags.c = false
  notNZ   : ¬ (s.flags.n = true ∧ s.flags.z = true)

end Sys2Proof.Machine
end

