-- ==== Sys2Proof/Certificates/Slice0/Obligations.lean ====
section
/-! DEFINITION. The statements for the provers. Each docstring names the rule of the spec a statement formalises, or, where it
rests on a choice the spec marks as its own or the model made, the log entry of that choice. -/

open Sys2Proof Sys2Proof.Machine

/-! ## The decoder and the encoder -/

/-- R62, whole: `Decode` extracts `op = w[15:9]`, `da = w[8:6]`, `aa = w[5:3]`, `ba = w[2:0]` of every word, and is the exact
inverse of `Encode`. -/
def Obligations.DecodeExtractsFields : Prop :=
  (∀ w : Word,
    (Fields.ofWord w).op.toNat = w.toNat / 512 ∧
    (Fields.ofWord w).da.toNat = w.toNat / 64 % 8 ∧
    (Fields.ofWord w).aa.toNat = w.toNat / 8 % 8 ∧
    (Fields.ofWord w).ba.toNat = w.toNat % 8 ∧
    encodeFields (Fields.ofWord w).op.toNat (Fields.ofWord w).da.toNat (Fields.ofWord w).aa.toNat
      (Fields.ofWord w).ba.toNat = w) ∧
  ∀ (op : Opcode) (da aa ba : Field3),
    Fields.ofWord (encodeFields op.toNat da.toNat aa.toNat ba.toNat) = { op := op, da := da, aa := aa, ba := ba }

/-- The word `Encode` packs (the formula of R71, for natural numbers), and the offset bits a branch is encoded with: `off mod 64`,
which R71 gives for -32 to 31. For an offset term outside that range the cut is the model's choice (DESIGN CHOICE, log entry
18). -/
def Obligations.EncodePacksFields : Prop :=
  (∀ op da aa ba : Nat,
    (encodeFields op da aa ba).toNat = op % 128 * 512 + da % 8 * 64 + aa % 8 * 8 + ba % 8) ∧
  ∀ (ra : Reg) (off : Int) (w : Word), w = encode (.brz ra off) ∨ w = encode (.brn ra off) →
    (((Fields.ofWord w).da.toNat * 8 + (Fields.ofWord w).ba.toNat : Nat) : Int) = off % 64 ∧
    (Fields.ofWord w).aa.toNat = ra.val

/-- R63, whole: the offset is the signed 6-bit value `{da, ba}`; bit 2 of `da` is its sign; its range is -32 to 31; it is
decoded only for `brz` and `brn`, whose register is `aa`; and it is added, unscaled, to the branch's own address (stated where
the sum stays inside 0 to 65535; the wrap is the spec's decision D4, log entry 3). -/
def Obligations.BranchOffsetField : Prop :=
  (∀ da ba : Field3,
    branchOffset da ba =
      (if da.toNat * 8 + ba.toNat ≤ 31 then ((da.toNat * 8 + ba.toNat : Nat) : Int)
        else ((da.toNat * 8 + ba.toNat : Nat) : Int) - 64) ∧
    -32 ≤ branchOffset da ba ∧ branchOffset da ba ≤ 31 ∧
    (branchOffset da ba < 0 ↔ da.getLsbD 2 = true)) ∧
  branchOffset 0b100 0b000 = -32 ∧ branchOffset 0b011 0b111 = 31 ∧ branchOffset 0b111 0b111 = -1 ∧
  (∀ f : Fields,
    (f.op = opcodeOf .brz → decode f.toWord = .ok (.brz (regOfField f.aa) (branchOffset f.da f.ba))) ∧
    (f.op = opcodeOf .brn → decode f.toWord = .ok (.brn (regOfField f.aa) (branchOffset f.da f.ba)))) ∧
  (∀ (i : Instr) (s : State) (a : Word), takenTarget i s = some a →
    (∃ ra off, i = .brz ra off) ∨ (∃ ra off, i = .brn ra off) ∨ ∃ ra, i = .jmp ra ∧ a = s.x[ra]) ∧
  ∀ (ra : Reg) (da ba : Field3) (s t : State),
    0 ≤ (s.pc.toNat : Int) + branchOffset da ba → (s.pc.toNat : Int) + branchOffset da ba ≤ 65535 →
    (s.x[ra].toNat = 0 ∧ exec (.brz ra (branchOffset da ba)) s = .next t) ∨
      (32768 ≤ s.x[ra].toNat ∧ exec (.brn ra (branchOffset da ba)) s = .next t) →
    (t.pc.toNat : Int) = s.pc.toNat + branchOffset da ba

/-- Decode and encode agree, under every opcode map consistent with the source and whichever field names `jmp`'s register
(92_eei_decisions.md D2, D3): decoding the word of a well-formed instruction gives it back. -/
def Obligations.DecodeEncodeEveryEncoding : Prop :=
  ∀ e : Encoding, e.Admissible → ∀ i : Instr, i.wellFormed = true → decodeWith e (encodeWith e i) = .ok i

/-- The other direction, under every admissible encoding: what the decoder reads from a word is well-formed, has the opcode of
its mnemonic, and is read again from the instruction's own word, whose unused fields are 0 (D8, log entry 7). -/
def Obligations.DecodedInstructionIsCanonical : Prop :=
  ∀ (e : Encoding) (w : Word) (i : Instr), e.Admissible → decodeWith e w = .ok i →
    i.wellFormed = true ∧ e.opcode i.mnemonic = (Fields.ofWord w).op ∧ decodeWith e (encodeWith e i) = .ok i

/-- Exactly the 109 opcodes outside the default map are unrecognized, and the rejection carries the opcode of the word. The
numbers are the presumed map of R67 (log entry 1). -/
def Obligations.DecodeRejectsExactlyUnassigned : Prop :=
  let assigned : List Opcode :=
    [0x00, 0x01, 0x02, 0x05, 0x06, 0x08, 0x09, 0x0A, 0x0B, 0x0C, 0x0D, 0x0E, 0x10, 0x20, 0x42, 0x4C, 0x60, 0x61, 0x70]
  (∀ w : Word,
    ((Fields.ofWord w).op ∉ assigned → decode w = .error (.unrecognizedOpcode (Fields.ofWord w).op)) ∧
    ((Fields.ofWord w).op ∈ assigned → ∃ i, decode w = .ok i)) ∧
  ((List.range 128).filter fun n => decide (BitVec.ofNat 7 n ∉ assigned)).length = 109

/-- The operand forms of R61 and R66: which field each operand of each instruction is read from, and that a field the form does
not list is ignored (D8, log entry 7; `jmp`'s field is D3, log entry 2). -/
def Obligations.OperandFormsDecode : Prop :=
  ∀ (da aa ba : Field3),
    let word (m : Mnemonic) : Word := Fields.toWord { op := opcodeOf m, da := da, aa := aa, ba := ba }
    let rd := regOfField da
    let ra := regOfField aa
    let rb := regOfField ba
    decode (word .mova) = .ok (.mova rd ra) ∧ decode (word .inc) = .ok (.inc rd ra) ∧
    decode (word .add) = .ok (.add rd ra rb) ∧ decode (word .sub) = .ok (.sub rd ra rb) ∧
    decode (word .dec) = .ok (.dec rd ra) ∧ decode (word .and) = .ok (.and rd ra rb) ∧
    decode (word .or) = .ok (.or rd ra rb) ∧ decode (word .xor) = .ok (.xor rd ra rb) ∧
    decode (word .not) = .ok (.not rd ra) ∧ decode (word .movb) = .ok (.movb rd rb) ∧
    decode (word .shr) = .ok (.shr rd rb) ∧ decode (word .shl) = .ok (.shl rd rb) ∧
    decode (word .ldi) = .ok (.ldi rd ba.toNat) ∧ decode (word .adi) = .ok (.adi rd ra ba.toNat) ∧
    decode (word .ld) = .ok (.ld rd ra) ∧ decode (word .st) = .ok (.st ra rb) ∧
    decode (word .brz) = .ok (.brz ra (branchOffset da ba)) ∧ decode (word .brn) = .ok (.brn ra (branchOffset da ba)) ∧
    decode (word .jmp) = .ok (.jmp ra) ∧
    rd.val = da.toNat ∧ ra.val = aa.toNat ∧ rb.val = ba.toNat

/-- Words of 95_test_vectors.md section 2.1, non-zero unused fields and words of no instruction among them. The opcode numbers
are the presumed map (log entry 1). -/
def Obligations.SpecWordsDecode : Prop :=
  decode 0x0050 = .ok (.mova 1 2) ∧ decode 0x0057 = .ok (.mova 1 2) ∧ decode 0x9803 = .ok (.ldi 0 3) ∧
  decode 0x983B = .ok (.ldi 0 3) ∧ decode 0x0481 = .ok (.add 2 0 1) ∧ decode 0x4019 = .ok (.st 3 1) ∧
  decode 0x41D9 = .ok (.st 3 1) ∧ decode 0xC1C7 = .ok (.brz 0 (-1)) ∧ decode 0xC308 = .ok (.brn 1 (-32)) ∧
  decode 0xC0CF = .ok (.brz 1 31) ∧ decode 0xE1F7 = .ok (.jmp 6) ∧
  decode 0x4C03 = .error (.unrecognizedOpcode 0x26) ∧ decode 0xFFFF = .error (.unrecognizedOpcode 0x7F)

/-! ## The instructions: the next state of each

Each says that the instruction completes in every state, with the next state in full: what is not named is as before. A
result is given by its value as a number, so that the wrap of R110 and the truncation of the flags (D5, log entry 4) are
visible. -/

/-- `mova` (R111 but for its encoding): the value moved, flags cleared. -/
def Obligations.MovaResult : Prop :=
  ∀ (rd ra : Reg) (s : State),
    exec (.mova rd ra) s = .next { s with
      x := s.x.set rd s.x[ra], pc := s.pc + 1, runState := .running
      flags := { v := false, c := false, n := false, z := false } }

/-- `inc` (R112 but for its encoding): `x[aa] + 1` modulo 65536, flags CLEARED (`INC_FLAG_CLASS`, the spec's decision D6, log
entry 5). -/
def Obligations.IncResult : Prop :=
  ∀ (rd ra : Reg) (s : State), ∃ r : Word,
    r.toNat = (s.x[ra].toNat + 1) % 65536 ∧
    exec (.inc rd ra) s = .next { s with
      x := s.x.set rd r, pc := s.pc + 1, runState := .running
      flags := { v := false, c := false, n := false, z := false } }

/-- `add` (R113 but for its encoding): the sum modulo 65536, `N` and `Z` from it, no carry and no overflow recorded. -/
def Obligations.AddResult : Prop :=
  ∀ (rd ra rb : Reg) (s : State), ∃ r : Word,
    r.toNat = (s.x[ra].toNat + s.x[rb].toNat) % 65536 ∧
    exec (.add rd ra rb) s = .next { s with
      x := s.x.set rd r, pc := s.pc + 1, runState := .running
      flags := { v := false, c := false, n := decide (32768 ≤ r.toNat), z := decide (r.toNat = 0) } }

/-- `sub` (R114 but for its encoding): `aa` minus `ba` modulo 65536, no borrow recorded. -/
def Obligations.SubResult : Prop :=
  ∀ (rd ra rb : Reg) (s : State), ∃ r : Word,
    r.toNat = (if s.x[rb].toNat ≤ s.x[ra].toNat then s.x[ra].toNat - s.x[rb].toNat
      else s.x[ra].toNat + 65536 - s.x[rb].toNat) ∧
    exec (.sub rd ra rb) s = .next { s with
      x := s.x.set rd r, pc := s.pc + 1, runState := .running
      flags := { v := false, c := false, n := decide (32768 ≤ r.toNat), z := decide (r.toNat = 0) } }

/-- `dec` (R115 but for its encoding): `x[aa] - 1` modulo 65536, `N` and `Z` computed. -/
def Obligations.DecResult : Prop :=
  ∀ (rd ra : Reg) (s : State), ∃ r : Word,
    r.toNat = (if s.x[ra].toNat = 0 then 65535 else s.x[ra].toNat - 1) ∧
    exec (.dec rd ra) s = .next { s with
      x := s.x.set rd r, pc := s.pc + 1, runState := .running
      flags := { v := false, c := false, n := decide (32768 ≤ r.toNat), z := decide (r.toNat = 0) } }

/-- `and` (R116 but for its encoding): bit by bit. -/
def Obligations.AndResult : Prop :=
  ∀ (rd ra rb : Reg) (s : State), ∃ r : Word,
    (∀ k, k < 16 → r.getLsbD k = (s.x[ra].getLsbD k && s.x[rb].getLsbD k)) ∧
    exec (.and rd ra rb) s = .next { s with
      x := s.x.set rd r, pc := s.pc + 1, runState := .running
      flags := { v := false, c := false, n := decide (32768 ≤ r.toNat), z := decide (r.toNat = 0) } }

/-- `or` (R117 but for its encoding): bit by bit. -/
def Obligations.OrResult : Prop :=
  ∀ (rd ra rb : Reg) (s : State), ∃ r : Word,
    (∀ k, k < 16 → r.getLsbD k = (s.x[ra].getLsbD k || s.x[rb].getLsbD k)) ∧
    exec (.or rd ra rb) s = .next { s with
      x := s.x.set rd r, pc := s.pc + 1, runState := .running
      flags := { v := false, c := false, n := decide (32768 ≤ r.toNat), z := decide (r.toNat = 0) } }

/-- `xor` (R118 but for its encoding): bit by bit; with `aa = ba` the result is 0 and `Z` is set. -/
def Obligations.XorResult : Prop :=
  ∀ (rd ra rb : Reg) (s : State), ∃ r : Word,
    (∀ k, k < 16 → r.getLsbD k = (s.x[ra].getLsbD k ^^ s.x[rb].getLsbD k)) ∧ (ra = rb → r = 0) ∧
    exec (.xor rd ra rb) s = .next { s with
      x := s.x.set rd r, pc := s.pc + 1, runState := .running
      flags := { v := false, c := false, n := decide (32768 ≤ r.toNat), z := decide (r.toNat = 0) } }

/-- `not` (R119 but for its encoding): `65535 - x[aa]`. -/
def Obligations.NotResult : Prop :=
  ∀ (rd ra : Reg) (s : State), ∃ r : Word,
    r.toNat = 65535 - s.x[ra].toNat ∧
    exec (.not rd ra) s = .next { s with
      x := s.x.set rd r, pc := s.pc + 1, runState := .running
      flags := { v := false, c := false, n := decide (32768 ≤ r.toNat), z := decide (r.toNat = 0) } }

/-- `movb` (R120 but for its encoding): as `mova`, the source named by `ba`. -/
def Obligations.MovbResult : Prop :=
  ∀ (rd rb : Reg) (s : State),
    exec (.movb rd rb) s = .next { s with
      x := s.x.set rd s.x[rb], pc := s.pc + 1, runState := .running
      flags := { v := false, c := false, n := false, z := false } }

/-- `shr` (R121 but for its encoding): half the unsigned value, flags cleared. That bit 15 is filled with 0 is the spec's
decision D7 (log entry 6). -/
def Obligations.ShrResult : Prop :=
  ∀ (rd rb : Reg) (s : State), ∃ r : Word,
    r.toNat = s.x[rb].toNat / 2 ∧
    exec (.shr rd rb) s = .next { s with
      x := s.x.set rd r, pc := s.pc + 1, runState := .running
      flags := { v := false, c := false, n := false, z := false } }

/-- `shl` (R122 but for its encoding): twice the value modulo 65536, flags cleared (D7, log entry 6). -/
def Obligations.ShlResult : Prop :=
  ∀ (rd rb : Reg) (s : State), ∃ r : Word,
    r.toNat = 2 * s.x[rb].toNat % 65536 ∧
    exec (.shl rd rb) s = .next { s with
      x := s.x.set rd r, pc := s.pc + 1, runState := .running
      flags := { v := false, c := false, n := false, z := false } }

/-- `ldi` (R130 but for its encoding): the immediate zero-extended (an immediate 0 to 7 is its own value modulo 8), flags CLEARED
(`LDI_FLAG_CLASS`, D6, log entry 5). That a term above 7, which no word carries, acts as the field it is cut to is the model's
choice (DESIGN CHOICE, log entry 18). -/
def Obligations.LdiResult : Prop :=
  ∀ (rd : Reg) (imm : Nat) (s : State), ∃ r : Word,
    r.toNat = imm % 8 ∧
    exec (.ldi rd imm) s = .next { s with
      x := s.x.set rd r, pc := s.pc + 1, runState := .running
      flags := { v := false, c := false, n := false, z := false } }

/-- `adi` (R131 but for its encoding): the sum with the zero-extended immediate modulo 65536, `N` and `Z` COMPUTED
(`ADI_FLAG_CLASS`, D6, log entry 5). That an immediate term above 7, which no word carries, acts as the field it is cut to is the
model's choice (DESIGN CHOICE, log entry 18). -/
def Obligations.AdiResult : Prop :=
  ∀ (rd ra : Reg) (imm : Nat) (s : State), ∃ r : Word,
    r.toNat = (s.x[ra].toNat + imm % 8) % 65536 ∧
    exec (.adi rd ra imm) s = .next { s with
      x := s.x.set rd r, pc := s.pc + 1, runState := .running
      flags := { v := false, c := false, n := decide (32768 ≤ r.toNat), z := decide (r.toNat = 0) } }

/-- `ld` (R140 but for its encoding): the word at the address in `x[aa]`, high byte at `2a`, low byte at `2a + 1`; flags
cleared; data memory as before. -/
def Obligations.LdResult : Prop :=
  ∀ (rd ra : Reg) (s : State), ∃ r : Word,
    r.toNat = (s.dm.readByte (2 * s.x[ra].toNat)).toNat * 256 + (s.dm.readByte (2 * s.x[ra].toNat + 1)).toNat ∧
    exec (.ld rd ra) s = .next { s with
      x := s.x.set rd r, pc := s.pc + 1, runState := .running
      flags := { v := false, c := false, n := false, z := false } }

/-- `st` (R141 but for its encoding): the two bytes of `x[ba]` written at `2a` and `2a + 1`, no register written, flags
cleared. -/
def Obligations.StResult : Prop :=
  ∀ (ra rb : Reg) (s : State), ∃ hi lo : Byte,
    hi.toNat = s.x[rb].toNat / 256 ∧ lo.toNat = s.x[rb].toNat % 256 ∧
    exec (.st ra rb) s = .next { s with
      dm := (s.dm.writeByte (2 * s.x[ra].toNat) hi).writeByte (2 * s.x[ra].toNat + 1) lo
      pc := s.pc + 1, runState := .running
      flags := { v := false, c := false, n := false, z := false } }

/-- `brz` (R150 but for its encoding): taken where the register is 0; the target is the branch's own address plus the offset,
modulo 65536 (D4, log entry 3); a taken branch with offset 0 halts. Flags cleared, taken or not. -/
def Obligations.BrzResult : Prop :=
  ∀ (ra : Reg) (off : Int) (s : State), -32 ≤ off → off ≤ 31 → ∃ target : Word,
    (target.toNat : Int) = (s.pc.toNat + off) % 65536 ∧
    exec (.brz ra off) s = .next { s with
      pc := if s.x[ra].toNat = 0 then target else s.pc + 1
      runState := if s.x[ra].toNat = 0 ∧ off = 0 then .halted else .running
      flags := { v := false, c := false, n := false, z := false } }

/-- `brn` (R151 but for its encoding): taken where bit 15 of the register is set; otherwise as `brz` (D4, log entry 3). -/
def Obligations.BrnResult : Prop :=
  ∀ (ra : Reg) (off : Int) (s : State), -32 ≤ off → off ≤ 31 → ∃ target : Word,
    (target.toNat : Int) = (s.pc.toNat + off) % 65536 ∧
    exec (.brn ra off) s = .next { s with
      pc := if 32768 ≤ s.x[ra].toNat then target else s.pc + 1
      runState := if 32768 ≤ s.x[ra].toNat ∧ off = 0 then .halted else .running
      flags := { v := false, c := false, n := false, z := false } }

/-- `jmp` (R153 but for its encoding and its field, D3, log entry 2): `pc` becomes the register; a jump to its own address
halts. Flags cleared. -/
def Obligations.JmpResult : Prop :=
  ∀ (ra : Reg) (s : State),
    exec (.jmp ra) s = .next { s with
      pc := s.x[ra]
      runState := if s.x[ra] = s.pc then .halted else .running
      flags := { v := false, c := false, n := false, z := false } }

/-! ## Frames and what an instruction depends on -/

/-- The frame of the fifteen instructions that write a register: every other register, every byte of data memory and program
memory are as before (R21, R22, R123, R142). -/
def Obligations.RegisterWriteFrame : Prop :=
  ∀ (i : Instr) (d : Reg) (s t : State), i.destination = some d → exec i s = .next t →
    (∀ r : Reg, r ≠ d → t.x[r] = s.x[r]) ∧ (∀ k, t.dm.readByte k = s.dm.readByte k) ∧ t.pm = s.pm ∧
    t.flags.v = false ∧ t.flags.c = false

/-- The frame of `st`: the stored bytes are the two at the address that the meaning computes; every other byte, every register
and program memory are as before. -/
def Obligations.StoreFrame : Prop :=
  ∀ (ra rb : Reg) (s t : State), s.dm.wf → exec (.st ra rb) s = .next t →
    (t.dm.readByte (highByteAddr (dataAddress ra s))).toNat = s.x[rb].toNat / 256 ∧
    (t.dm.readByte (lowByteAddr (dataAddress ra s))).toNat = s.x[rb].toNat % 256 ∧
    (∀ k, k ≠ highByteAddr (dataAddress ra s) → k ≠ lowByteAddr (dataAddress ra s) →
      t.dm.readByte k = s.dm.readByte k) ∧
    (∀ r : Reg, t.x[r] = s.x[r]) ∧ t.pm = s.pm ∧ t.flags.v = false ∧ t.flags.c = false

/-- The frame of `brz`, `brn` and `jmp`: no register, no byte of data memory and no program word changes; the flags are
cleared (R154, R27). -/
def Obligations.ControlTransferFrame : Prop :=
  ∀ (i : Instr) (s t : State), (∃ ra off, i = .brz ra off) ∨ (∃ ra off, i = .brn ra off) ∨ (∃ ra, i = .jmp ra) →
    exec i s = .next t →
    (∀ r : Reg, t.x[r] = s.x[r]) ∧ (∀ k, t.dm.readByte k = s.dm.readByte k) ∧ t.pm = s.pm ∧
    t.flags = { v := false, c := false, n := false, z := false }

/-- The "reads" column of R22: what an instruction does depends on no register but its sources, so that, for example,
`ldi r1,4` does not read `x[4]` (R132). -/
def Obligations.ReadsOnlySources : Prop :=
  ∀ (i : Instr) (s : State) (y : Vector Word 8), (∀ r ∈ i.sources, y[r] = s.x[r]) →
    ∃ t u, exec i s = .next t ∧ exec i { s with x := y } = .next u ∧
      u.pc = t.pc ∧ u.flags = t.flags ∧ u.runState = t.runState ∧ u.dm = t.dm ∧ u.pm = t.pm ∧
      ∀ d, i.destination = some d → u.x[d] = t.x[d]

/-- The flag classes, instruction by instruction: the seven arithmetic and logic instructions and `adi` set `N` and `Z` from the
register they write, all others clear all four flags (the classes of `inc`, `ldi`, `adi` are D6, log entry 5; the truncated
result is D5, log entry 4). -/
def Obligations.FlagClasses : Prop :=
  ∀ (i : Instr) (s t : State), exec i s = .next t →
    (i.mnemonic ∈ [Mnemonic.add, .sub, .dec, .and, .or, .xor, .not, .adi] → ∃ d, i.destination = some d ∧
      t.flags = { v := false, c := false, n := decide (32768 ≤ t.x[d].toNat), z := decide (t.x[d].toNat = 0) }) ∧
    (i.mnemonic ∈ [Mnemonic.mova, .inc, .movb, .shr, .shl, .ldi, .ld, .st, .brz, .brn, .jmp] →
      t.flags = { v := false, c := false, n := false, z := false })

/-- No instruction reads a flag or `run_state`: what an executed step does, the new flags included, does not depend on them
(R28, R29). -/
def Obligations.FlagsAndRunStateNeverRead : Prop :=
  ∀ (s t : State) (f : Flags) (rs : RunState), (stepResult s).decoded ≠ none → step s = .next t →
    step { s with flags := f, runState := rs } = .next t

/-! ## The step -/

/-- A step runs the decoded instruction: where `pc` is below `prog_len` and the word there decodes to `i`, the step is `exec` of
`i` at that very state, and the step result carries the fields and the mnemonic (R90, R92, R93, R101). -/
def Obligations.StepRunsDecoded : Prop :=
  ∀ (s : State) (w : Word) (i : Instr), s.pc.toNat < s.progLen → s.pm[s.pc.toNat]? = some w → decode w = .ok i →
    step s = exec i s ∧ (stepResult s).decoded = some (Fields.ofWord w, i.mnemonic)

/-- The same for the encoder's words: a well-formed instruction placed at `pc` is the one the step runs (R90, R92, R93). The second
clause, that the word `withFetchWord` places is the one fetched, is about the model's own stand-in for a program load, no rule of
the spec (DESIGN CHOICE, log entries 13 and 21). -/
def Obligations.StepRunsEncoded : Prop :=
  ∀ (s : State) (i : Instr), i.wellFormed = true →
    (s.pm[s.pc.toNat]? = some (encode i) → step s = exec i s) ∧
    step (s.withFetchWord 16 (encode i).toNat) = exec i (s.withFetchWord 16 (encode i).toNat)

/-- `EndOfProgram`: where `pc` is at or past `prog_len` the step changes nothing but `run_state` (`halted` by the spec's
decision D9, log entry 8) and returns false. -/
def Obligations.StepAtProgramEnd : Prop :=
  ∀ s : State, s.progLen ≤ s.pc.toNat →
    step s = .next { s with runState := .halted } ∧
    stepResult s = { continues := false, outcome := .endOfProgram, decoded := none, faultOp := none }

/-- R94, whole: a fetched word whose opcode is not one of the 19 ends the step with `IllegalOpcode(op)`; registers, `pc`, flags
and data memory are unchanged, and `pc` still addresses the offending word. -/
def Obligations.UnrecognizedOpcodeFaults : Prop :=
  ∀ (s : State) (w : Word), s.pc.toNat < s.progLen → s.pm[s.pc.toNat]? = some w →
    (∀ m : Mnemonic, opcodeOf m ≠ (Fields.ofWord w).op) →
    step s = .fault (.illegalOpcode (Fields.ofWord w).op) ∧
    (stepResult s).outcome = .illegalOpcode ∧ (stepResult s).faultOp = some (Fields.ofWord w).op ∧
    (stateAfter s).x = s.x ∧ (stateAfter s).pc = s.pc ∧ (stateAfter s).flags = s.flags ∧ (stateAfter s).dm = s.dm ∧
    (stateAfter s).pm[(stateAfter s).pc.toNat]? = some w

/-- Nothing else faults (R162): a step faults exactly on an unrecognized opcode at a `pc` below `prog_len`, and is never refused. -/
def Obligations.NothingElseFaults : Prop :=
  ∀ (s : State) (f : Fault),
    (step s = .fault f ↔ ∃ w, s.pc.toNat < s.progLen ∧ s.pm[s.pc.toNat]? = some w ∧
      (∀ m : Mnemonic, opcodeOf m ≠ (Fields.ofWord w).op) ∧ f = .illegalOpcode (Fields.ofWord w).op) ∧
    ∀ r : Refusal, step s ≠ .refused r

/-- R163, whole: the two halts are not faults. Both return false, report no error and leave a next state; `EndOfProgram` did
nothing; `SelfBranchHalt` executed its branch or jump, cleared the flags and kept `pc`. -/
def Obligations.HaltsAreNotFaults : Prop :=
  ∀ s : State,
    ((stepResult s).outcome = .endOfProgram →
      (stepResult s).continues = false ∧ (stepResult s).faultOp = none ∧ (stepResult s).outcome.normalEnd = true ∧
      ∃ t, step s = .next t ∧ t.x = s.x ∧ t.pc = s.pc ∧ t.flags = s.flags ∧ t.dm = s.dm ∧ t.pm = s.pm) ∧
    ((stepResult s).outcome = .selfBranchHalt →
      (stepResult s).continues = false ∧ (stepResult s).faultOp = none ∧ (stepResult s).outcome.normalEnd = true ∧
      ∃ i t, step s = .next t ∧ exec i s = .next t ∧ takenTarget i s = some s.pc ∧
        t.flags = { v := false, c := false, n := false, z := false } ∧ t.pc = s.pc ∧ t.x = s.x ∧ t.dm = s.dm) ∧
    ((stepResult s).outcome = .illegalOpcode → (stepResult s).outcome.normalEnd = false)

/-- How an executed instruction resolves `pc` (the cases of R24, R97, R98, R99): not taken, `pc + 1` modulo 65536 (D4, log
entry 3); taken elsewhere, the target; taken to itself, `pc` kept and `run_state` halted (D9, log entry 8). -/
def Obligations.PcResolution : Prop :=
  ∀ (i : Instr) (s : State), ∃ t, exec i s = .next t ∧
    (takenTarget i s = none → t.pc.toNat = (s.pc.toNat + 1) % 65536 ∧ t.runState = .running) ∧
    (∀ a, takenTarget i s = some a → a ≠ s.pc → t.pc = a ∧ t.runState = .running) ∧
    (takenTarget i s = some s.pc → t.pc = s.pc ∧ t.runState = .halted)

/-- Which instructions take a branch, when, and to where (R95, R150 to R153): `brz` on a zero register and `brn` on bit 15, to
their own address plus the offset modulo 65536 (D4, log entry 3), and `jmp` always, to its register. -/
def Obligations.TakenExactly : Prop :=
  ∀ (i : Instr) (s : State) (a : Word), i.wellFormed = true →
    (takenTarget i s = some a ↔
      (∃ ra off, i = .brz ra off ∧ s.x[ra].toNat = 0 ∧ (a.toNat : Int) = (s.pc.toNat + off) % 65536) ∨
      (∃ ra off, i = .brn ra off ∧ 32768 ≤ s.x[ra].toNat ∧ (a.toNat : Int) = (s.pc.toNat + off) % 65536) ∨
      ∃ ra, i = .jmp ra ∧ a = s.x[ra])

/-- The step result agrees with the step (R100, R101; `run_state` by D9, log entry 8): `continues` exactly where the next state
is `running`; a fault exactly where the outcome is `IllegalOpcode`, with the same opcode; otherwise the state after the step is
`halted`. -/
def Obligations.ResultAgreesWithStep : Prop :=
  ∀ s : State,
    ((stepResult s).continues = true ↔ ∃ t, step s = .next t ∧ t.runState = .running) ∧
    ((stepResult s).continues = true ↔ (stepResult s).outcome = .executed) ∧
    ((stepResult s).continues = false ↔ (stateAfter s).runState = .halted) ∧
    (∀ op, step s = .fault (.illegalOpcode op) ↔
      (stepResult s).outcome = .illegalOpcode ∧ (stepResult s).faultOp = some op) ∧
    ((stepResult s).decoded ≠ none ↔ (stepResult s).outcome = .executed ∨ (stepResult s).outcome = .selfBranchHalt)

/-- A stopped core stays stopped, with identical state and the same result, however often it is stepped (R102). -/
def Obligations.StoppedStaysStopped : Prop :=
  ∀ s : State, (stepResult s).continues = false →
    stepResult (stateAfter s) = stepResult s ∧ stateAfter (stateAfter s) = stateAfter s ∧
    (stateAfter s).x = s.x ∧ (stateAfter s).pc = s.pc

/-- A step reads program memory only at `pc` (R32, R92): a program that has the same word there, or also ends there, gives the
same step. -/
def Obligations.FetchReadsOnlyPc : Prop :=
  ∀ (s : State) (p : List Word), p[s.pc.toNat]? = s.pm[s.pc.toNat]? →
    step { s with pm := p } = match step s with
      | .next t => .next { t with pm := p }
      | .fault f => .fault f
      | .refused r => .refused r

/-- The meaning of an instruction sees only what its word carries. That an immediate or an offset term outside its range, which no
word carries, acts as the field it is cut to is the model's choice, no rule of the spec (DESIGN CHOICE, log entry 18). -/
def Obligations.MeaningSeesOnlyTheWord : Prop :=
  ∀ (i j : Instr) (s : State), decode (encode i) = .ok j → exec j s = exec i s

/-! ## Data memory -/

/-- R40, whole: the byte view is big-endian per word, `DM[a] = DB[2a] * 256 + DB[2a+1]`; the 131072 bytes are those of the 65536
words, each byte in one word; and the source's test of `0x1234` stored at address 0. -/
def Obligations.ByteViewBigEndian : Prop :=
  (∀ (m : Memory) (a : Word),
    (m.readWord a).toNat = (m.readByte (2 * a.toNat)).toNat * 256 + (m.readByte (2 * a.toNat + 1)).toNat ∧
    m.readByte (2 * a.toNat) = (m.readWord a).extractLsb' 8 8 ∧
    m.readByte (2 * a.toNat + 1) = (m.readWord a).extractLsb' 0 8) ∧
  (∀ k, k < 131072 → ∃! a : Word, k = 2 * a.toNat ∨ k = 2 * a.toNat + 1) ∧
  ∀ (ra rb : Reg) (s t : State), s.dm.wf → s.x[ra] = 0 → s.x[rb] = 0x1234 → exec (.st ra rb) s = .next t →
    t.dm.readByte 0 = 0x12 ∧ t.dm.readByte 1 = 0x34

/-- R44, whole: `MemRead(a, 2)` is the word of the two bytes as they are when the step runs, an environment write just before it
included; reading changes no memory; and only `ld` uses it: no other instruction's registers, `pc`, flags or `run_state` depend
on data memory. -/
def Obligations.MemReadByLdOnly : Prop :=
  (∀ (m : Memory) (a : Word), m.readWord a = m.readByte (2 * a.toNat) ++ m.readByte (2 * a.toNat + 1)) ∧
  (∀ (rd ra : Reg) (s t : State), exec (.ld rd ra) s = .next t →
    t.x[rd] = s.dm.readWord s.x[ra] ∧ t.dm = s.dm) ∧
  (∀ (rd ra : Reg) (k : Fin Config.dataBytes) (v : Byte) (s t u : State), s.dm.wf →
    (Action.write k v).apply s = some t → exec (.ld rd ra) t = .next u →
    u.x[rd] = (if k.val = 2 * s.x[ra].toNat then v else s.dm.readByte (2 * s.x[ra].toNat)) ++
      (if k.val = 2 * s.x[ra].toNat + 1 then v else s.dm.readByte (2 * s.x[ra].toNat + 1))) ∧
  ∀ (i : Instr) (s : State) (m : Memory), (∀ rd ra, i ≠ .ld rd ra) →
    ∃ t u, exec i s = .next t ∧ exec i { s with dm := m } = .next u ∧
      u.x = t.x ∧ u.pc = t.pc ∧ u.flags = t.flags ∧ u.runState = t.runState ∧ u.pm = t.pm

/-- R45, whole: `MemWrite(a, 2, v)` sets byte `2a` to `v[15:8]` and byte `2a+1` to `v[7:0]`, that is `DM[a]` to `v`, and changes
no other byte; only `st` uses it. -/
def Obligations.MemWriteByStOnly : Prop :=
  (∀ (m : Memory) (a v : Word), m.wf →
    (m.writeWord a v).readByte (2 * a.toNat) = v.extractLsb' 8 8 ∧
    (m.writeWord a v).readByte (2 * a.toNat + 1) = v.extractLsb' 0 8 ∧
    (m.writeWord a v).readWord a = v ∧
    ∀ k, k ≠ 2 * a.toNat → k ≠ 2 * a.toNat + 1 → (m.writeWord a v).readByte k = m.readByte k) ∧
  ∀ (i : Instr) (s t : State), exec i s = .next t →
    (∃ ra rb, i = .st ra rb ∧ t.dm = s.dm.writeWord s.x[ra] s.x[rb]) ∨ ((∀ ra rb, i ≠ .st ra rb) ∧ t.dm = s.dm)

/-- A word stored by `st` and loaded back by `ld` from the same address comes back unchanged, for every address and value, and a
load from any other address gives what was there before the store (R41, R50). -/
def Obligations.StoreThenLoad : Prop :=
  ∀ (ra rb rd rc : Reg) (s t u : State), s.dm.wf → exec (.st ra rb) s = .next t → exec (.ld rd rc) t = .next u →
    u.x[rd] = if s.x[rc] = s.x[ra] then s.x[rb] else s.dm.readWord s.x[rc]

/-- R49, whole: no translation and no protection. `ld` and `st` complete at every address, which is used as it is; they reach no
program word; the only fault is the illegal opcode. -/
def Obligations.NoTranslationOrProtection : Prop :=
  (∀ (rd ra : Reg) (s : State) (p : List Word), ∃ t, exec (.ld rd ra) s = .next t ∧ t.x[rd] = s.dm.readWord s.x[ra] ∧
    t.pm = s.pm ∧ exec (.ld rd ra) { s with pm := p } = .next { t with pm := p }) ∧
  (∀ (ra rb : Reg) (s : State), ∃ t, exec (.st ra rb) s = .next t ∧ t.dm = s.dm.writeWord s.x[ra] s.x[rb] ∧
    t.pm = s.pm) ∧
  ∀ (s : State) (f : Fault), step s = .fault f → ∃ op, f = .illegalOpcode op ∧ ∀ m : Mnemonic, opcodeOf m ≠ op

/-- Equal data memories are equal data: two canonical memories that read alike at every byte are the same list. The canonical form
is the model's (log entry 12). -/
def Obligations.CanonicalMemoryIsUnique : Prop :=
  ∀ m n : Memory, m.wf → n.wf → (∀ k, m.readByte k = n.readByte k) → m = n

/-- What passes over the two ports in a step, and that it is what the step does (R43 to R46, R140, R141). The ports themselves are
the spec's decision (R55, D1 and D13) and modelled at transaction level (DEDUCED, log entry 20). A fetch presents `pc`, exactly where
`pc` is inside the program. A decoded `ld` reads the word at `x[ra]`, which ends in `x[rd]`; a decoded `st` writes `x[rb]` at
`x[ra]`; every other step has no data access and leaves data memory as it was. -/
def Obligations.PortsAgreeWithStep : Prop :=
  ∀ s : State,
    (portActivity s).fetched = (if s.pc.toNat < s.progLen then s.pm[s.pc.toNat]?.map (Prod.mk s.pc) else none) ∧
    match s.pm[s.pc.toNat]?.map decode with
    | some (.ok (.ld rd ra)) =>
      (portActivity s).data = some (.read s.x[ra] (s.dm.readWord s.x[ra])) ∧
        (stateAfter s).x[rd] = s.dm.readWord s.x[ra] ∧ (stateAfter s).dm = s.dm
    | some (.ok (.st ra rb)) =>
      (portActivity s).data = some (.write s.x[ra] s.x[rb]) ∧ (stateAfter s).dm = s.dm.writeWord s.x[ra] s.x[rb]
    | _ => (portActivity s).data = none ∧ (stateAfter s).dm = s.dm

/-- Memory consistency (R50 (a) to (c)): after any sequence of steps, resets, program loads (with their reset, log entry 14) and
environment writes, every byte of data memory holds the last value written to it by an `st` or by the environment, or its old
value where none wrote it. The premise is the canonical form, the model's own (log entry 12). -/
def Obligations.LastWriteIsRead : Prop :=
  ∀ (moves : List Action) (s t : State), s.dm.wf → performAll moves s = some t →
    ∀ k, t.dm.readByte k = lastWritten (allWrites moves s) k (s.dm.readByte k)

/-- No instruction, step, reset or environment write changes program memory; only a program load does (R53). That the load leaves
`pc` 0 and `run_state` idle is the model's reading of the launch, the load and the reset as one move (DEDUCED, log entry 14). -/
def Obligations.ProgramMemoryImmutable : Prop :=
  (∀ (i : Instr) (s t : State), exec i s = .next t → t.pm = s.pm) ∧
  (∀ (a : Action) (s t : State), a.apply s = some t → (∀ p, a ≠ .load p) → t.pm = s.pm) ∧
  ∀ (p : List Word) (s t : State), (Action.load p).apply s = some t → t.pm = p ∧ t.pc = 0 ∧ t.runState = .idle

/-! ## Reset, runs and the invariant -/

/-- R180, whole: a reset request zeroes registers, flags and `pc`, sets `run_state` to `idle`, keeps program memory, `prog_len` and
data memory; it may be issued in any state, with an effect that depends on the memories alone; and it is the only way to leave a
stop: after a stopped step, further steps and environment writes leave `run_state` halted. -/
def Obligations.ResetRequestEffect : Prop :=
  (∀ s : State, ∃ t, Action.reset.apply s = some t ∧ (∀ r : Reg, t.x[r] = 0) ∧ t.pc = 0 ∧
    t.flags = { v := false, c := false, n := false, z := false } ∧ t.runState = .idle ∧
    t.pm = s.pm ∧ t.progLen = s.progLen ∧ t.dm = s.dm) ∧
  (∀ s u : State, s.pm = u.pm → s.dm = u.dm → Action.reset.apply s = Action.reset.apply u) ∧
  ∀ (moves : List Action) (s t : State), (stepResult s).continues = false →
    (∀ a ∈ moves, a = .step ∨ ∃ k v, a = .write k v) → performAll moves (stateAfter s) = some t →
    t.runState = .halted ∧ (stepResult t).continues = false

/-- The invariant holds right after reset, and at every launch of a program of at most 65536 words with any canonical data memory
(the choices of State.reset are log entries 12 and 13). -/
def Obligations.InvAtReset : Prop :=
  Inv State.reset ∧
  ∀ (program : List Word) (data : Memory), program.length ≤ 65536 → data.wf → Inv (launchState program data)

/-- Every step keeps the invariant: `V` and `C` stay 0, `N` and `Z` are never both set, data memory stays canonical, program memory
stays within its size (R4, R26, R27, R32). The canonical form is the model's own (DESIGN CHOICE, log entry 12). -/
def Obligations.StepKeepsInv : Prop :=
  ∀ s t : State, Inv s → step s = .next t → Inv t

/-- Every sequence of moves of the core and the environment (R6, R105) keeps the invariant, faulting steps included. The canonical
form in it is the model's own (DESIGN CHOICE, log entry 12); a program load carries its reset (log entry 14). -/
def Obligations.MovesKeepInv : Prop :=
  ∀ (moves : List Action) (s t : State), Inv s → performAll moves s = some t → Inv t

/-- How a run ends (R104): with an end of program, a self-branch halt or a fault, in a halted state; only the first two are normal
ends; the last step is the first whose result is false, so a longer allowance gives the same end. The runs are those in which the
environment does not write data memory (R50, D13), the premise `run` carries (DESIGN CHOICE, log entry 22). -/
def Obligations.RunEndsAtFirstStop : Prop :=
  ∀ (n k : Nat) (s t : State) (o : StepOutcome), run n s = .ended o t →
    run (n + k) s = .ended o t ∧ t.runState = .halted ∧ o ≠ .executed ∧
    (o.normalEnd = true ↔ o = .endOfProgram ∨ o = .selfBranchHalt) ∧
    ∃ j u, j < n ∧ run j s = .going u ∧ (stepResult u).continues = false ∧ o = (stepResult u).outcome ∧ t = stateAfter u
end

