-- ==== Sys2Proof/Laws/Decode.lean ====
section
/-! SUPPORT. The small lemmas of the decoder and the encoder: fields and words, registers, immediates and offsets, the opcode
map. -/

namespace Sys2Proof

/-- Decoding the word of four fields gives the fields back (R72). -/
@[simp] theorem ofWord_toWord (f : Fields) : Fields.ofWord f.toWord = f := by
  obtain ⟨op, da, aa, ba⟩ := f
  simp only [Fields.ofWord, Fields.toWord, Fields.mk.injEq]
  refine ⟨?_, ?_, ?_, ?_⟩ <;> ext k hk <;> simp <;> grind

/-- The four fields partition the word (R62, R72). -/
@[simp] theorem toWord_ofWord (w : Word) : (Fields.ofWord w).toWord = w := by
  simp only [Fields.ofWord, Fields.toWord]
  ext k hk
  simp
  grind

@[simp] theorem regOfField_fieldOfReg (r : Reg) : regOfField (fieldOfReg r) = r := rfl

@[simp] theorem fieldOfReg_regOfField (f : Field3) : fieldOfReg (regOfField f) = f := rfl

/-- The two halves of an offset field put together again (R63). -/
theorem append_halves (u : BitVec 6) : (u.extractLsb' 3 3 ++ u.extractLsb' 0 3 : BitVec 6) = u := by
  ext k hk
  simp
  grind

/-- An offset in range survives its 6-bit field (R63, R71). -/
theorem toInt_offsetBits {off : Int} (h : offsetInRange off = true) : (offsetBits off).toInt = off := by
  simp only [offsetInRange, decide_eq_true_eq] at h
  simp only [offsetBits, BitVec.toInt_ofInt, Int.bmod]
  norm_num
  omega

/-- The offset that the fields of a branch hold (R63, R71). -/
theorem branchOffset_halves {off : Int} (h : offsetInRange off = true) :
    branchOffset ((offsetBits off).extractLsb' 3 3) ((offsetBits off).extractLsb' 0 3) = off := by
  unfold branchOffset
  rw [append_halves, toInt_offsetBits h]

/-- Every 6-bit field is an offset in range (R63). -/
theorem offsetInRange_branchOffset (da ba : Field3) : offsetInRange (branchOffset da ba) = true := by
  unfold offsetInRange branchOffset
  refine decide_eq_true ?_
  have h := BitVec.toInt_lt (x := (da ++ ba : BitVec 6))
  have h' := BitVec.le_toInt (x := (da ++ ba : BitVec 6))
  norm_num at h h'
  omega

/-- An immediate in range survives its 3-bit field (R64). -/
theorem toNat_immediate {imm : Nat} (h : immediateInRange imm = true) : (BitVec.ofNat 3 imm).toNat = imm := by
  simp only [immediateInRange, decide_eq_true_eq] at h
  simp
  omega

/-- Every 3-bit field is an immediate in range (R64). -/
theorem immediateInRange_toNat (f : Field3) : immediateInRange f.toNat = true := by
  have := f.isLt
  simp [immediateInRange]
  omega

/-- Every mnemonic is in the list (R66). -/
theorem mem_all (m : Mnemonic) : m ∈ Mnemonic.all := by cases m <;> decide

/-- The opcode of a mnemonic names that mnemonic, under any injective map (R68). -/
theorem mnemonicOf_opcode {e : Encoding} (he : e.Admissible) (m : Mnemonic) : e.mnemonicOf? (e.opcode m) = some m := by
  unfold Encoding.mnemonicOf?
  cases h : Mnemonic.all.find? fun n => decide (e.opcode n = e.opcode m) with
  | none => exact absurd (List.find?_eq_none.1 h m (mem_all m)) (by simp)
  | some n =>
    have := List.find?_some h
    simp only [decide_eq_true_eq] at this
    rw [he.1 _ _ this]

/-- An opcode names a mnemonic only where it is that mnemonic's opcode (R68). -/
theorem opcode_of_mnemonicOf {e : Encoding} {op : Opcode} {m : Mnemonic} (h : e.mnemonicOf? op = some m) :
    e.opcode m = op := by
  simpa using List.find?_some h

/-- An opcode that names no mnemonic is the opcode of none (R68). -/
theorem mnemonicOf_eq_none {e : Encoding} {op : Opcode} : e.mnemonicOf? op = none ↔ ∀ m, e.opcode m ≠ op := by
  unfold Encoding.mnemonicOf?
  rw [List.find?_eq_none]
  exact ⟨fun h m => by simpa using h m (mem_all m), fun h m _ => by simpa using h m⟩

/-- The instruction a form reads has the form's mnemonic. -/
@[simp] theorem mnemonic_ofFields (jf : FieldName) (m : Mnemonic) (f : Fields) : (Instr.ofFields jf m f).mnemonic = m := by
  cases m <;> rfl

/-- Every instruction the decoder reads is well-formed (R63, R64). -/
theorem wellFormed_ofFields (jf : FieldName) (m : Mnemonic) (f : Fields) : (Instr.ofFields jf m f).wellFormed = true := by
  cases m <;>
    first
    | rfl
    | exact immediateInRange_toNat _
    | exact offsetInRange_branchOffset _ _

/-- The fields of an instruction carry the opcode they were given. -/
@[simp] theorem toFields_op (jf : FieldName) (op : Opcode) (i : Instr) : (i.toFields jf op).op = op := by
  cases i <;> first | rfl | (cases jf <;> rfl)

/-- What the decoder can answer: an instruction of the mnemonic its opcode names. -/
theorem decodeWith_ok {e : Encoding} {w : Word} {i : Instr} (h : decodeWith e w = .ok i) :
    ∃ m, e.mnemonicOf? (Fields.ofWord w).op = some m ∧ i = Instr.ofFields e.jmpField m (Fields.ofWord w) := by
  unfold decodeWith at h
  split at h
  · rename_i m hm
    exact ⟨m, hm, (Except.ok.inj h).symm⟩
  · exact absurd h (by simp)

/-- When the decoder rejects a word, and what it reports (R68, R161). -/
theorem decodeWith_error {e : Encoding} {w : Word} {r : DecodeReject} :
    decodeWith e w = .error r ↔
      e.mnemonicOf? (Fields.ofWord w).op = none ∧ r = .unrecognizedOpcode (Fields.ofWord w).op := by
  unfold decodeWith
  constructor
  · intro h
    split at h
    · exact absurd h (by simp)
    · rename_i hn
      exact ⟨hn, (Except.error.inj h).symm⟩
  · rintro ⟨hn, rfl⟩
    simp [hn]

/-- The default encoding is consistent with the source (D2). -/
theorem encoding_admissible : encoding.Admissible := by
  refine ⟨fun m n h => ?_, rfl⟩
  cases m <;> cases n <;> first | rfl | exact absurd h (by decide)

end Sys2Proof
end

