-- ==== Sys2Proof/Laws/Memory.lean ====
section
/-! SUPPORT. What each operation over data memory can do: read after write, and that every write keeps the canonical
form. -/

namespace Sys2Proof.Machine

/-- An address below every listed one reads as unlisted. -/
theorem readByte_below {m : Memory} {k : Nat} (h : ∀ c ∈ m, k < c.1) : m.readByte k = Memory.unlistedByte := by
  induction m with
  | nil => rfl
  | cons c m ih =>
    have hc := h c (by simp)
    simp only [Memory.readByte]
    rw [if_neg (by omega)]
    exact ih fun d hd => h d (by simp [hd])

/-- Reading the byte of a cell that may have been left out. -/
@[simp] theorem readByte_cell (k j : Nat) (v : Byte) (rest : Memory) (h : ∀ c ∈ rest, k < c.1) :
    (Memory.cell k v rest).readByte j = if k = j then v else rest.readByte j := by
  unfold Memory.cell
  split
  · rename_i hv
    split
    · rename_i hk
      rw [← hk, readByte_below h, hv]
    · rfl
  · rfl

/-- The cells of a memory, after the first, have higher addresses. -/
theorem wf_cons {c : Host.Cell} {m : Memory} (h : Memory.wf (c :: m)) :
    Memory.wf m ∧ (∀ d ∈ m, c.1 < d.1) ∧ c.1 < Config.dataBytes ∧ c.2 ≠ Memory.unlistedByte := by
  obtain ⟨hp, ha⟩ := h
  rw [List.pairwise_cons] at hp
  exact ⟨⟨hp.2, fun d hd => ha d (by simp [hd])⟩, hp.1, ha c (by simp)⟩

/-- Read after write, for one byte: the written byte reads as written, every other byte as before. -/
theorem readByte_writeByte {m : Memory} (h : m.wf) (k j : Nat) (v : Byte) :
    (m.writeByte k v).readByte j = if k = j then v else m.readByte j := by
  induction m with
  | nil => simp [Memory.writeByte]
  | cons c m ih =>
    obtain ⟨a, b⟩ := c
    obtain ⟨hm, hlt, -, -⟩ := wf_cons h
    simp only [Memory.writeByte]
    split
    · rename_i hka
      rw [readByte_cell]
      intro c hc
      rcases List.mem_cons.1 hc with rfl | hc
      · exact hka
      · exact lt_trans hka (hlt c hc)
    · split
      · rename_i hka
        subst hka
        rw [readByte_cell _ _ _ _ hlt]
        simp only [Memory.readByte]
        split <;> rfl
      · rename_i hka
        simp only [Memory.readByte, ih hm]
        split
        · rename_i haj
          subst haj
          simp [hka]
        · rfl

theorem mem_cell {k : Nat} {v : Byte} {rest : Memory} {c : Host.Cell} (h : c ∈ Memory.cell k v rest) :
    (c = (k, v) ∧ v ≠ Memory.unlistedByte) ∨ c ∈ rest := by
  unfold Memory.cell at h
  split at h
  · exact .inr h
  · rcases List.mem_cons.1 h with rfl | h
    · exact .inl ⟨rfl, by assumption⟩
    · exact .inr h

theorem cell_wf {k : Nat} {v : Byte} {rest : Memory} (hk : k < Config.dataBytes) (hr : Memory.wf rest)
    (hlt : ∀ c ∈ rest, k < c.1) : Memory.wf (Memory.cell k v rest) := by
  unfold Memory.cell
  split
  · exact hr
  · refine ⟨List.pairwise_cons.2 ⟨hlt, hr.1⟩, fun c hc => ?_⟩
    rcases List.mem_cons.1 hc with rfl | hc
    · exact ⟨hk, by assumption⟩
    · exact hr.2 c hc

/-- A byte write lists no address but those listed before and the one written. -/
theorem mem_writeByte {m : Memory} {k : Nat} {v : Byte} {c : Host.Cell} (h : c ∈ m.writeByte k v) :
    c.1 = k ∨ c ∈ m := by
  induction m with
  | nil =>
    rcases mem_cell (show c ∈ Memory.cell k v [] from h) with ⟨rfl, -⟩ | h
    · exact .inl rfl
    · exact .inr h
  | cons d m ih =>
    obtain ⟨a, b⟩ := d
    simp only [Memory.writeByte] at h
    split at h
    · rcases mem_cell h with ⟨rfl, -⟩ | h
      · exact .inl rfl
      · exact .inr h
    · split at h
      · rcases mem_cell h with ⟨rfl, -⟩ | h
        · exact .inl rfl
        · exact .inr (List.mem_cons_of_mem _ h)
      · rcases List.mem_cons.1 h with rfl | h
        · exact .inr (by simp)
        · exact (ih h).imp id (List.mem_cons_of_mem _)

/-- A byte write inside the byte view keeps the canonical form. -/
theorem writeByte_wf {m : Memory} (h : m.wf) {k : Nat} (hk : k < Config.dataBytes) (v : Byte) :
    (m.writeByte k v).wf := by
  induction m with
  | nil => exact cell_wf hk h (by simp)
  | cons c m ih =>
    obtain ⟨a, b⟩ := c
    obtain ⟨hm, hlt, ha, hb⟩ := wf_cons h
    simp only [Memory.writeByte]
    split
    · rename_i hka
      refine cell_wf hk h fun c hc => ?_
      rcases List.mem_cons.1 hc with rfl | hc
      · exact hka
      · exact lt_trans hka (hlt c hc)
    · split
      · rename_i hka
        subst hka
        exact cell_wf hk hm hlt
      · rename_i h1 h2
        have hw := ih hm
        refine ⟨List.pairwise_cons.2 ⟨fun c hc => ?_, hw.1⟩, fun c hc => ?_⟩
        · rcases mem_writeByte hc with rfl | hc
          · show a < c.1
            omega
          · exact hlt c hc
        · rcases List.mem_cons.1 hc with rfl | hc
          · exact ⟨ha, hb⟩
          · exact hw.2 c hc

theorem highByteAddr_lt (a : Word) : highByteAddr a < Config.dataBytes := by
  have := a.isLt; simp only [highByteAddr, Config.dataBytes]; omega

theorem lowByteAddr_lt (a : Word) : lowByteAddr a < Config.dataBytes := by
  have := a.isLt; simp only [lowByteAddr, Config.dataBytes]; omega

/-- A word write keeps the canonical form. -/
theorem writeWord_wf {m : Memory} (h : m.wf) (a v : Word) : (m.writeWord a v).wf :=
  writeByte_wf (writeByte_wf h (highByteAddr_lt a) _) (lowByteAddr_lt a) _

/-- What a word write does to every byte (R45): two bytes change, no other. -/
theorem readByte_writeWord {m : Memory} (h : m.wf) (a v : Word) (k : Nat) :
    (m.writeWord a v).readByte k =
      if k = highByteAddr a then highByte v else if k = lowByteAddr a then lowByte v else m.readByte k := by
  unfold Memory.writeWord
  rw [readByte_writeByte (writeByte_wf h (highByteAddr_lt a) _), readByte_writeByte h]
  have : highByteAddr a ≠ lowByteAddr a := by simp [highByteAddr, lowByteAddr]
  grind

end Sys2Proof.Machine
end

