-- ==== Sys2Proof/Laws/State.lean ====
section
/-! SUPPORT. The small lemmas of the state: for every update, what it leaves in each field. -/

namespace Sys2Proof.Machine

/-! ## Registers -/

theorem read_eq (s : State) (r : Reg) : s.read r = s.x[r] := rfl

/-- A written register reads as written, every other register as before (R21). -/
theorem writeReg_getElem (x : Vector Word 8) (d r : Reg) (v : Word) :
    (writeReg x d v)[r] = if d = r then v else x[r] := by
  simp [writeReg, Vector.getElem_set, Fin.ext_iff]

theorem writeReg_same (x : Vector Word 8) (d : Reg) (v : Word) : (writeReg x d v)[d] = v :=
  (writeReg_getElem x d d v).trans (if_pos rfl)

theorem writeReg_other (x : Vector Word 8) {d r : Reg} (v : Word) (h : d ≠ r) : (writeReg x d v)[r] = x[r] :=
  (writeReg_getElem x d r v).trans (if_neg h)

/-! ## The commit of an executed instruction -/

@[simp] theorem commit_pm (e : Effect) (s : State) : (commit e s).pm = s.pm := rfl
@[simp] theorem commit_flags (e : Effect) (s : State) : (commit e s).flags = e.flags := rfl
@[simp] theorem commit_pc (e : Effect) (s : State) : (commit e s).pc = nextPc s.pc e.target := rfl
@[simp] theorem commit_runState (e : Effect) (s : State) : (commit e s).runState = nextRunState s.pc e.target := rfl
@[simp] theorem commit_x (e : Effect) (s : State) :
    (commit e s).x = match e.dst with
      | some (d, v) => writeReg s.x d v
      | none => s.x := rfl
@[simp] theorem commit_dm (e : Effect) (s : State) :
    (commit e s).dm = match e.store with
      | some (a, v) => s.dm.writeWord a v
      | none => s.dm := rfl

@[simp] theorem nextPc_none (pc : Word) : nextPc pc none = pc + 1 := rfl

/-- A taken branch leaves `pc` at its target, its own address included (R98, R99). -/
@[simp] theorem nextPc_some (pc t : Word) : nextPc pc (some t) = t := by
  unfold nextPc; split <;> simp_all

@[simp] theorem nextRunState_none (pc : Word) : nextRunState pc none = .running := rfl
@[simp] theorem nextRunState_some (pc t : Word) :
    nextRunState pc (some t) = if t = pc then .halted else .running := by
  simp [nextRunState, selfBranch]

/-- `run_state` after an executed instruction is never `idle`: it is `halted` exactly at a self-branch. -/
theorem nextRunState_eq_running (pc : Word) (t : Option Word) :
    nextRunState pc t = .running ↔ selfBranch pc t = false := by
  unfold nextRunState; split <;> simp_all

/-! ## The steps that execute nothing, reset, and the environment's moves -/

@[simp] theorem endOfProgram_x (s : State) : (endOfProgram s).x = s.x := rfl
@[simp] theorem endOfProgram_pc (s : State) : (endOfProgram s).pc = s.pc := rfl
@[simp] theorem endOfProgram_flags (s : State) : (endOfProgram s).flags = s.flags := rfl
@[simp] theorem endOfProgram_runState (s : State) : (endOfProgram s).runState = .halted := rfl
@[simp] theorem endOfProgram_pm (s : State) : (endOfProgram s).pm = s.pm := rfl
@[simp] theorem endOfProgram_dm (s : State) : (endOfProgram s).dm = s.dm := rfl

@[simp] theorem faultedState_x (s : State) : (faultedState s).x = s.x := rfl
@[simp] theorem faultedState_pc (s : State) : (faultedState s).pc = s.pc := rfl
@[simp] theorem faultedState_flags (s : State) : (faultedState s).flags = s.flags := rfl
@[simp] theorem faultedState_runState (s : State) : (faultedState s).runState = .halted := rfl
@[simp] theorem faultedState_pm (s : State) : (faultedState s).pm = s.pm := rfl
@[simp] theorem faultedState_dm (s : State) : (faultedState s).dm = s.dm := rfl

@[simp] theorem resetRequest_x (s : State) : (resetRequest s).x = Vector.replicate 8 0 := rfl
@[simp] theorem resetRequest_pc (s : State) : (resetRequest s).pc = 0 := rfl
@[simp] theorem resetRequest_flags (s : State) : (resetRequest s).flags = Flags.cleared := rfl
@[simp] theorem resetRequest_runState (s : State) : (resetRequest s).runState = .idle := rfl
@[simp] theorem resetRequest_pm (s : State) : (resetRequest s).pm = s.pm := rfl
@[simp] theorem resetRequest_dm (s : State) : (resetRequest s).dm = s.dm := rfl

@[simp] theorem environmentWrite_x (k : Fin Config.dataBytes) (v : Byte) (s : State) :
    (environmentWrite k v s).x = s.x := rfl
@[simp] theorem environmentWrite_pc (k : Fin Config.dataBytes) (v : Byte) (s : State) :
    (environmentWrite k v s).pc = s.pc := rfl
@[simp] theorem environmentWrite_flags (k : Fin Config.dataBytes) (v : Byte) (s : State) :
    (environmentWrite k v s).flags = s.flags := rfl
@[simp] theorem environmentWrite_runState (k : Fin Config.dataBytes) (v : Byte) (s : State) :
    (environmentWrite k v s).runState = s.runState := rfl
@[simp] theorem environmentWrite_pm (k : Fin Config.dataBytes) (v : Byte) (s : State) :
    (environmentWrite k v s).pm = s.pm := rfl
@[simp] theorem environmentWrite_dm (k : Fin Config.dataBytes) (v : Byte) (s : State) :
    (environmentWrite k v s).dm = s.dm.writeByte k v := rfl

@[simp] theorem withFetchWord_x (s : State) (n w : Nat) : (s.withFetchWord n w).x = s.x := rfl
@[simp] theorem withFetchWord_pc (s : State) (n w : Nat) : (s.withFetchWord n w).pc = s.pc := rfl
@[simp] theorem withFetchWord_flags (s : State) (n w : Nat) : (s.withFetchWord n w).flags = s.flags := rfl
@[simp] theorem withFetchWord_runState (s : State) (n w : Nat) : (s.withFetchWord n w).runState = s.runState := rfl
@[simp] theorem withFetchWord_dm (s : State) (n w : Nat) : (s.withFetchWord n w).dm = s.dm := rfl

/-! ## Flags -/

/-- No class sets `V` (R26). -/
@[simp] theorem flagsFor_v (k : FlagClass) (r : Word) : (flagsFor k r).v = false := by cases k <;> rfl

/-- No class sets `C` (R26). -/
@[simp] theorem flagsFor_c (k : FlagClass) (r : Word) : (flagsFor k r).c = false := by cases k <;> rfl

/-- One result is never both negative and zero (R26, R27). -/
theorem flagsFor_not_n_and_z (k : FlagClass) (r : Word) : ¬ ((flagsFor k r).n = true ∧ (flagsFor k r).z = true) := by
  cases k
  · rintro ⟨hn, hz⟩
    have : r = 0 := by simpa [flagsFor, Flags.ofResult] using hz
    subst this
    simp [flagsFor, Flags.ofResult] at hn
  · simp [flagsFor, Flags.cleared]

/-! ## Fetch -/

/-- There is a word to fetch exactly where `pc < prog_len` (R91, R43). -/
theorem fetch_eq_none_iff (s : State) : s.fetch = none ↔ s.progLen ≤ s.pc.toNat := by
  simp [State.fetch, State.progLen]

/-- The word that `withFetchWord` places is the word the next step fetches. -/
theorem fetch_withFetchWord (s : State) (n w : Nat) :
    (s.withFetchWord n w).fetch = some (BitVec.ofNat 16 (w % 2 ^ n)) := by
  simp only [State.fetch, State.withFetchWord]
  rw [List.getElem?_set_self]
  simp only [List.length_append, List.length_replicate]
  omega

end Sys2Proof.Machine
end

