-- ==== Sys2Proof/Laws/Operands.lean ====
section
/-! SUPPORT. What the shared operations compute, as numbers: flags, immediates, bytes and words, the branch-offset adder. -/

namespace Sys2Proof.Machine

/-- The flags of a result as tests on its value (R26). -/
theorem ofResult_eq (r : Word) :
    Flags.ofResult r = { v := false, c := false, n := decide (32768 ≤ r.toNat), z := decide (r.toNat = 0) } := by
  have hn : r.msb = decide (32768 ≤ r.toNat) := by rw [BitVec.msb_eq_decide]
  have hz : decide (r = 0) = decide (r.toNat = 0) :=
    decide_eq_decide.2 ⟨fun h => by simp [h], fun h => BitVec.eq_of_toNat_eq h⟩
  simp only [Flags.ofResult, hn, hz]

/-- A committed destination holds its result. -/
theorem commit_dst (d : Reg) (v : Word) (f : Flags) (s : State) :
    (commit { dst := some (d, v), flags := f } s).x[d] = v := writeReg_same _ _ _

/-- An immediate is its 3-bit field, zero-extended (R64). -/
theorem immediate_toNat (imm : Nat) : (immediate imm).toNat = imm % 8 := by
  simp [immediate]; omega

/-- `v[15:8]` as a number. -/
theorem highByte_toNat (v : Word) : (highByte v).toNat = v.toNat / 256 := by
  have := v.isLt
  simp [highByte, Nat.shiftRight_eq_div_pow]; omega

/-- `v[7:0]` as a number. -/
theorem lowByte_toNat (v : Word) : (lowByte v).toNat = v.toNat % 256 := by simp [lowByte]

/-- A word from its two bytes, as a number (R40). -/
theorem append_toNat (hi lo : Byte) : (hi ++ lo : Word).toNat = hi.toNat * 256 + lo.toNat := by
  rw [BitVec.toNat_append, ← Nat.shiftLeft_add_eq_or_of_lt lo.isLt, Nat.shiftLeft_eq]

/-- The two bytes of a word put together again (R40). -/
theorem highByte_append_lowByte (v : Word) : (highByte v ++ lowByte v : Word) = v := by
  apply BitVec.eq_of_toNat_eq
  rw [append_toNat, highByte_toNat, lowByte_toNat]
  omega

/-- The high byte of two bytes put together. -/
theorem highByte_append (hi lo : Byte) : highByte (hi ++ lo : Word) = hi := by
  have := hi.isLt
  have := lo.isLt
  apply BitVec.eq_of_toNat_eq
  rw [highByte_toNat, append_toNat]
  omega

/-- The low byte of two bytes put together. -/
theorem lowByte_append (hi lo : Byte) : lowByte (hi ++ lo : Word) = lo := by
  have := lo.isLt
  apply BitVec.eq_of_toNat_eq
  rw [lowByte_toNat, append_toNat]
  omega

/-- Read after write, for one word: the written word reads as written, every other word as before (R41, R45). -/
theorem readWord_writeWord {m : Memory} (h : m.wf) (a b v : Word) :
    (m.writeWord a v).readWord b = if b = a then v else m.readWord b := by
  unfold Memory.readWord
  rw [readByte_writeWord h, readByte_writeWord h]
  by_cases e : b = a
  · subst e
    have : lowByteAddr b ≠ highByteAddr b := by simp [lowByteAddr, highByteAddr]
    simp only [if_true, this, if_false, highByte_append_lowByte]
  · have ne : b.toNat ≠ a.toNat := fun h => e (BitVec.eq_of_toNat_eq h)
    have h1 : highByteAddr b ≠ highByteAddr a := by simp only [highByteAddr]; omega
    have h2 : highByteAddr b ≠ lowByteAddr a := by simp only [highByteAddr, lowByteAddr]; omega
    have h3 : lowByteAddr b ≠ highByteAddr a := by simp only [highByteAddr, lowByteAddr]; omega
    have h4 : lowByteAddr b ≠ lowByteAddr a := by simp only [lowByteAddr]; omega
    simp only [h1, h2, h3, h4, e, if_false]

/-- The sign-extended offset is the offset, for one in range (R63). -/
theorem offsetWord_toInt {off : Int} (h : offsetInRange off = true) : (offsetWord off).toInt = off := by
  unfold offsetWord
  rw [BitVec.toInt_signExtend_of_le (by omega), toInt_offsetBits h]

/-- The branch-offset adder as integer arithmetic modulo 65536 (R152). -/
theorem branchTarget_toNat {off : Int} (h : offsetInRange off = true) (s : State) :
    ((branchTarget off s).toNat : Int) = (s.pc.toNat + off) % 65536 := by
  have hi := BitVec.toInt_eq_toNat_bmod (offsetWord off)
  rw [offsetWord_toInt h] at hi
  have := (offsetWord off).isLt
  unfold branchTarget
  rw [BitVec.toNat_add]
  generalize (offsetWord off).toNat = n at *
  simp only [Int.bmod] at hi
  push_cast
  split at hi <;> norm_num at * <;> omega

/-- A branch targets its own address exactly where its offset is 0 (R99). -/
theorem branchTarget_eq_pc {off : Int} (h : offsetInRange off = true) (s : State) :
    branchTarget off s = s.pc ↔ off = 0 := by
  have ht := branchTarget_toNat h s
  have := s.pc.isLt
  constructor
  · intro e
    simp only [offsetInRange, decide_eq_true_eq] at h
    rw [e] at ht
    omega
  · intro e
    apply BitVec.eq_of_toNat_eq
    omega

/-- When `brz` is taken, and to where (R150). -/
theorem brzTarget_eq_some {ra : Reg} {off : Int} {s : State} {a : Word} :
    brzTarget ra off s = some a ↔ s.x[ra].toNat = 0 ∧ branchTarget off s = a := by
  have hz : s.read ra = 0 ↔ s.x[ra].toNat = 0 := ⟨fun h => by rw [← read_eq, h]; rfl, fun h => BitVec.eq_of_toNat_eq h⟩
  unfold brzTarget
  split <;> simp_all

/-- When `brn` is taken, and to where (R151). -/
theorem brnTarget_eq_some {ra : Reg} {off : Int} {s : State} {a : Word} :
    brnTarget ra off s = some a ↔ 32768 ≤ s.x[ra].toNat ∧ branchTarget off s = a := by
  have hn : (s.read ra).msb = true ↔ 32768 ≤ s.x[ra].toNat := by
    rw [BitVec.msb_eq_decide, decide_eq_true_eq, read_eq]
  unfold brnTarget
  split <;> simp_all

end Sys2Proof.Machine
end

