-- ==== Sys2Proof/Laws/Exec.lean ====
section
/-! SUPPORT. What `exec` and `step` can do, said once: every executed instruction is one `commit` (R95, R96), and a step is
an end of program, a fault or an executed instruction (R90). -/

namespace Sys2Proof.Machine

/-- What each instruction gives to `commit`: the table of R73. -/
def effectOf (i : Instr) (s : State) : Effect :=
  let result (m : Mnemonic) (d : Reg) (r : Word) : Effect := { dst := some (d, r), flags := flagsFor (flagClassOf m) r }
  match i with
  | .mova rd ra => result .mova rd (s.read ra)
  | .inc rd ra => result .inc rd (s.read ra + 1)
  | .add rd ra rb => result .add rd (s.read ra + s.read rb)
  | .sub rd ra rb => result .sub rd (s.read ra - s.read rb)
  | .dec rd ra => result .dec rd (s.read ra - 1)
  | .and rd ra rb => result .and rd (s.read ra &&& s.read rb)
  | .or rd ra rb => result .or rd (s.read ra ||| s.read rb)
  | .xor rd ra rb => result .xor rd (s.read ra ^^^ s.read rb)
  | .not rd ra => result .not rd (~~~ s.read ra)
  | .movb rd rb => result .movb rd (s.read rb)
  | .shr rd rb => result .shr rd (s.read rb >>> 1)
  | .shl rd rb => result .shl rd (s.read rb <<< 1)
  | .ldi rd imm => result .ldi rd (immediate imm)
  | .adi rd ra imm => result .adi rd (s.read ra + immediate imm)
  | .ld rd ra => result .ld rd (s.dm.readWord (s.read ra))
  | .st ra rb => { flags := flagsFor (flagClassOf .st) 0, store := some (s.read ra, s.read rb) }
  | .brz ra off => { flags := flagsFor (flagClassOf .brz) 0, target := brzTarget ra off s }
  | .brn ra off => { flags := flagsFor (flagClassOf .brn) 0, target := brnTarget ra off s }
  | .jmp ra => { flags := flagsFor (flagClassOf .jmp) 0, target := jmpTarget ra s }

/-- Every instruction completes, and its next state is one commit of its effect. -/
theorem exec_eq (i : Instr) (s : State) : exec i s = .next (commit (effectOf i s) s) := by cases i <;> rfl

/-- The next state of an executed instruction. -/
theorem exec_next {i : Instr} {s t : State} (h : exec i s = .next t) : t = commit (effectOf i s) s := by
  rw [exec_eq] at h
  exact (Host.Outcome.next.inj h).symm

/-- The branch taken is the one the step result reports (R95). -/
theorem effectOf_target (i : Instr) (s : State) : (effectOf i s).target = takenTarget i s := by cases i <;> rfl

/-- The register written is the destination of R22. -/
theorem effectOf_dst (i : Instr) (s : State) : (effectOf i s).dst.map Prod.fst = i.destination := by cases i <;> rfl

/-- No effect sets `V` or `C`, or both `N` and `Z` (R26). -/
theorem effectOf_flags (i : Instr) (s : State) :
    (effectOf i s).flags.v = false ∧ (effectOf i s).flags.c = false ∧
      ¬ ((effectOf i s).flags.n = true ∧ (effectOf i s).flags.z = true) := by
  cases i <;> exact ⟨flagsFor_v _ _, flagsFor_c _ _, flagsFor_not_n_and_z _ _⟩

/-- Only `st` stores (R45). -/
theorem effectOf_store (i : Instr) (s : State) :
    (effectOf i s).store = none ∨ ∃ ra rb, i = .st ra rb ∧ (effectOf i s).store = some (s.read ra, s.read rb) := by
  cases i <;> first | exact .inl rfl | exact .inr ⟨_, _, rfl, rfl⟩

/-- What one step can do, whole (R90): it halts at the end of the program, faults on an unrecognized opcode, or executes the
decoded instruction. -/
theorem step_cases (s : State) :
    (s.fetch = none ∧ step s = .next (endOfProgram s)) ∨
    (∃ w, s.fetch = some w ∧ encoding.mnemonicOf? (Fields.ofWord w).op = none ∧
      decode w = .error (.unrecognizedOpcode (Fields.ofWord w).op) ∧
      step s = .fault (.illegalOpcode (Fields.ofWord w).op)) ∨
    (∃ w i, s.fetch = some w ∧ decode w = .ok i ∧ step s = exec i s) := by
  unfold step
  cases hf : s.fetch with
  | none => exact .inl ⟨rfl, rfl⟩
  | some w =>
    cases hd : decode w with
    | ok i => exact .inr (.inr ⟨w, i, rfl, hd, by simp only [hd]⟩)
    | error r =>
      obtain ⟨hn, rfl⟩ := decodeWith_error.1 (show decodeWith encoding w = .error r from hd)
      exact .inr (.inl ⟨w, rfl, hn, hd, by simp only [hd, raiseIllegalOpcode]⟩)

/-- What one step can do, with its result and the state it leaves (R90, R101). -/
theorem step_result_cases (s : State) :
    (s.fetch = none ∧ step s = .next (endOfProgram s) ∧ stateAfter s = endOfProgram s ∧
      stepResult s = { continues := false, outcome := .endOfProgram, decoded := none, faultOp := none }) ∨
    (∃ w, s.fetch = some w ∧ encoding.mnemonicOf? (Fields.ofWord w).op = none ∧
      decode w = .error (.unrecognizedOpcode (Fields.ofWord w).op) ∧
      step s = .fault (.illegalOpcode (Fields.ofWord w).op) ∧ stateAfter s = faultedState s ∧
      stepResult s = { continues := false, outcome := .illegalOpcode, decoded := none,
                       faultOp := some (Fields.ofWord w).op }) ∨
    (∃ w i, s.fetch = some w ∧ decode w = .ok i ∧ step s = .next (commit (effectOf i s) s) ∧
      stateAfter s = commit (effectOf i s) s ∧ stepResult s = executedResult w i s) := by
  rcases step_cases s with ⟨hf, hs⟩ | ⟨w, hf, hn, hd, hs⟩ | ⟨w, i, hf, hd, hs⟩
  · exact .inl ⟨hf, hs, by simp only [stateAfter, hs], by simp only [stepResult, hf]⟩
  · exact .inr (.inl ⟨w, hf, hn, hd, hs, by simp only [stateAfter, hs], by simp only [stepResult, hf, hd]⟩)
  · rw [exec_eq] at hs
    exact .inr (.inr ⟨w, i, hf, hd, hs, by simp only [stateAfter, hs], by simp only [stepResult, hf, hd]⟩)

/-- What passes over the ports in a step, whole (R55): nothing at the end of the program, the fetch alone where the opcode names no
instruction, else the fetch and the data access of the instruction. -/
theorem portActivity_cases (s : State) :
    (s.fetch = none ∧ portActivity s = { fetched := none, data := none }) ∨
    (∃ w op, s.fetch = some w ∧ decode w = .error (.unrecognizedOpcode op) ∧
      portActivity s = { fetched := some (s.pc, w), data := none }) ∨
    (∃ w i, s.fetch = some w ∧ decode w = .ok i ∧
      portActivity s = { fetched := some (s.pc, w), data := dataAccess i s }) := by
  rcases step_cases s with ⟨hf, -⟩ | ⟨w, hf, -, hd, -⟩ | ⟨w, i, hf, hd, -⟩
  · exact .inl ⟨hf, by simp only [portActivity, hf]⟩
  · exact .inr (.inl ⟨w, _, hf, hd, by simp only [portActivity, hf, hd]⟩)
  · exact .inr (.inr ⟨w, i, hf, hd, by simp only [portActivity, hf, hd]⟩)

/-- What a program load does: it is a reset with the new program, of at most 65536 words (R184). -/
theorem loadProgram_eq_some {program : List Word} {s t : State} :
    loadProgram program s = some t ↔
      program.length ≤ Config.programWordsMax ∧ t = resetRequest { s with pm := program } := by
  unfold loadProgram
  split <;> simp_all [eq_comm]

/-- An instruction that takes a branch writes no register, stores nothing and clears the flags (R99, R154). -/
theorem effectOf_of_taken {i : Instr} {s : State} {a : Word} (h : takenTarget i s = some a) :
    (effectOf i s).dst = none ∧ (effectOf i s).store = none ∧ (effectOf i s).flags = Flags.cleared := by
  cases i <;> simp [takenTarget] at h <;> exact ⟨rfl, rfl, rfl⟩

/-- A run still going after `n` steps is the sequence of `n` step moves, in which the environment writes nothing (R104, R50;
log entry 22). -/
theorem run_going_performAll {n : Nat} {s t : State} (h : run n s = .going t) :
    performAll (List.replicate n .step) s = some t ∧ NoEnvironmentWrite (List.replicate n .step) := by
  refine ⟨?_, fun a ha k v => by rw [List.eq_of_mem_replicate ha]; exact nofun⟩
  induction n generalizing s with
  | zero => simpa [run, performAll] using h
  | succ n ih =>
    simp only [run] at h
    split at h
    · simpa [List.replicate_succ, performAll, Action.apply] using ih h
    · cases h

end Sys2Proof.Machine
end

