-- ==== Sys2Proof/Laws/PerInstr.lean ====
section
/-! SUPPORT. Facts about every instruction as syntax, one lemma per constructor. -/

namespace Sys2Proof.Laws

/-- The operands of a well-formed instruction survive its fields: reading the fields back by the instruction's form gives the
instruction, whatever the opcode and whichever field names `jmp`'s register (R61). -/
def OperandPacking.Statement (i : Instr) : Prop :=
  i.wellFormed = true → ∀ jf op, Instr.ofFields jf i.mnemonic (i.toFields jf op) = i

theorem OperandPacking.mova (rd ra : Reg) : OperandPacking.Statement (.mova rd ra) := fun _ _ _ => rfl
theorem OperandPacking.inc (rd ra : Reg) : OperandPacking.Statement (.inc rd ra) := fun _ _ _ => rfl
theorem OperandPacking.add (rd ra rb : Reg) : OperandPacking.Statement (.add rd ra rb) := fun _ _ _ => rfl
theorem OperandPacking.sub (rd ra rb : Reg) : OperandPacking.Statement (.sub rd ra rb) := fun _ _ _ => rfl
theorem OperandPacking.dec (rd ra : Reg) : OperandPacking.Statement (.dec rd ra) := fun _ _ _ => rfl
theorem OperandPacking.and (rd ra rb : Reg) : OperandPacking.Statement (.and rd ra rb) := fun _ _ _ => rfl
theorem OperandPacking.or (rd ra rb : Reg) : OperandPacking.Statement (.or rd ra rb) := fun _ _ _ => rfl
theorem OperandPacking.xor (rd ra rb : Reg) : OperandPacking.Statement (.xor rd ra rb) := fun _ _ _ => rfl
theorem OperandPacking.not (rd ra : Reg) : OperandPacking.Statement (.not rd ra) := fun _ _ _ => rfl
theorem OperandPacking.movb (rd rb : Reg) : OperandPacking.Statement (.movb rd rb) := fun _ _ _ => rfl
theorem OperandPacking.shr (rd rb : Reg) : OperandPacking.Statement (.shr rd rb) := fun _ _ _ => rfl
theorem OperandPacking.shl (rd rb : Reg) : OperandPacking.Statement (.shl rd rb) := fun _ _ _ => rfl
theorem OperandPacking.ldi (rd : Reg) (imm : Nat) : OperandPacking.Statement (.ldi rd imm) := fun h _ _ => by
  simp only [Instr.ofFields, Instr.mnemonic, Instr.toFields, toNat_immediate h, regOfField_fieldOfReg]
theorem OperandPacking.adi (rd ra : Reg) (imm : Nat) : OperandPacking.Statement (.adi rd ra imm) := fun h _ _ => by
  simp only [Instr.ofFields, Instr.mnemonic, Instr.toFields, toNat_immediate h, regOfField_fieldOfReg]
theorem OperandPacking.ld (rd ra : Reg) : OperandPacking.Statement (.ld rd ra) := fun _ _ _ => rfl
theorem OperandPacking.st (ra rb : Reg) : OperandPacking.Statement (.st ra rb) := fun _ _ _ => rfl
theorem OperandPacking.brz (ra : Reg) (off : Int) : OperandPacking.Statement (.brz ra off) := fun h _ _ => by
  simp only [Instr.ofFields, Instr.mnemonic, Instr.toFields, branchFields, branchOffset_halves h, regOfField_fieldOfReg]
theorem OperandPacking.brn (ra : Reg) (off : Int) : OperandPacking.Statement (.brn ra off) := fun h _ _ => by
  simp only [Instr.ofFields, Instr.mnemonic, Instr.toFields, branchFields, branchOffset_halves h, regOfField_fieldOfReg]
theorem OperandPacking.jmp (ra : Reg) : OperandPacking.Statement (.jmp ra) := fun _ jf _ => by cases jf <;> rfl

end Sys2Proof.Laws
end

