-- ==== Sys2Proof/Tests/Slice0.lean ====
section
/-! SUPPORT. The model's own tests. Every expected value is taken from the spec: the encodings of 30_encoding.md R67 written
out field by field, and the vectors of 95_test_vectors.md. Then, for every statement with hypotheses, a witness that meets
them. -/

namespace Sys2Proof.Tests
open Sys2Proof.Machine

/-! ## WellFormed: each check refuses an ill-formed term, and accepts the ends of its range -/

theorem test_wf_ldi_immediate : (Instr.ldi 0 8).wellFormed = false ∧ (Instr.ldi 0 7).wellFormed = true := by decide
theorem test_wf_adi_immediate : (Instr.adi 0 1 8).wellFormed = false ∧ (Instr.adi 0 1 7).wellFormed = true := by decide
theorem test_wf_brz_offset :
    (Instr.brz 0 32).wellFormed = false ∧ (Instr.brz 0 (-33)).wellFormed = false ∧
    (Instr.brz 0 31).wellFormed = true ∧ (Instr.brz 0 (-32)).wellFormed = true := by decide
theorem test_wf_brn_offset :
    (Instr.brn 0 32).wellFormed = false ∧ (Instr.brn 0 (-33)).wellFormed = false ∧
    (Instr.brn 0 31).wellFormed = true ∧ (Instr.brn 0 (-32)).wellFormed = true := by decide

/-! ## Decoding: op, da, aa, ba written out bit by bit (R60, R67) -/

theorem test_decode_mova : decode 0b0000000001010000 = .ok (.mova 1 2) := by decide
theorem test_decode_inc : decode 0b0000001010001000 = .ok (.inc 2 1) := by decide
theorem test_decode_add : decode 0b0000010010000001 = .ok (.add 2 0 1) := by decide
theorem test_decode_sub : decode 0b0000101100101110 = .ok (.sub 4 5 6) := by decide
theorem test_decode_dec : decode 0b0000110111111000 = .ok (.dec 7 7) := by decide
theorem test_decode_and : decode 0b0001000001010011 = .ok (.and 1 2 3) := by decide
theorem test_decode_or : decode 0b0001001111110101 = .ok (.or 7 6 5) := by decide
theorem test_decode_xor : decode 0b0001010001010011 = .ok (.xor 1 2 3) := by decide
theorem test_decode_not : decode 0b0001011001000000 = .ok (.not 1 0) := by decide
theorem test_decode_movb : decode 0b0001100010000111 = .ok (.movb 2 7) := by decide
theorem test_decode_shr : decode 0b0001101011000100 = .ok (.shr 3 4) := by decide
theorem test_decode_shl : decode 0b0001110100000010 = .ok (.shl 4 2) := by decide
theorem test_decode_ldi : decode 0b1001100001000100 = .ok (.ldi 1 4) := by decide
theorem test_decode_adi : decode 0b1000010011001000 = .ok (.adi 3 1 0) := by decide
theorem test_decode_ld : decode 0b0010000100011000 = .ok (.ld 4 3) := by decide
theorem test_decode_st : decode 0b0100000000011001 = .ok (.st 3 1) := by decide
theorem test_decode_brz : decode 0b1100000111010101 = .ok (.brz 2 (-3)) := by decide
theorem test_decode_brn : decode 0b1100001100001000 = .ok (.brn 1 (-32)) := by decide
theorem test_decode_jmp : decode 0b1110000000110000 = .ok (.jmp 6) := by decide

/-- 95_test_vectors.md section 2.1: non-zero unused fields. -/
theorem test_decode_unused_ignored :
    decode 0x0057 = .ok (.mova 1 2) ∧ decode 0x983B = .ok (.ldi 0 3) ∧ decode 0x41D9 = .ok (.st 3 1) ∧
    decode 0xE1F7 = .ok (.jmp 6) := by decide

/-- 95_test_vectors.md section 2.1: words of no instruction. -/
theorem test_decode_unrecognized :
    decode 0x0600 = .error (.unrecognizedOpcode 0x03) ∧ decode 0x4C03 = .error (.unrecognizedOpcode 0x26) ∧
    decode 0xFFFF = .error (.unrecognizedOpcode 0x7F) := by decide

/-- The table's row of `sub` with its operand fields 0 (opcode_table.json `match`), and a word of no row. -/
theorem test_decodeTableWord : decodeTableWord 16 0x0A00 = some (.sub 0 0 0) ∧ decodeTableWord 16 0x0600 = none := by decide

/-- 95_test_vectors.md S5: out-of-range fields are reduced first. -/
theorem test_encodeFields : encodeFields 0x14C 8 9 11 = 0x980B ∧ encodeFields 0x7F 7 7 7 = 0xFFFF := by decide

/-- The words of 95_test_vectors.md section 2.6. -/
theorem test_encode_branches :
    encode (.brz 2 (-3)) = 0xC1D5 ∧ encode (.brn 1 (-32)) = 0xC308 ∧ encode (.brz 1 31) = 0xC0CF := by decide

/-! ## One instruction at a time (95_test_vectors.md sections 2.3 to 2.6) -/

/-- A small state: `x[a] = u`, `x[b] = v`, the other registers 0, `pc`, and flags all set so that a cleared flag shows. -/
def small (a : Reg) (u : Word) (b : Reg) (v : Word) (pc : Word) : State :=
  { State.reset with
    x := writeReg (writeReg State.reset.x a u) b v
    pc := pc
    flags := { v := true, c := true, n := true, z := true } }

/-- Whether the instruction's next state has `x[d] = r`, these `N` and `Z`, `V` and `C` clear, and this `pc`. -/
def gives (i : Instr) (s : State) (d : Reg) (r : Word) (n z : Bool) (pc : Word) : Bool :=
  match exec i s with
  | .next t => decide (t.x[d] = r ∧ t.flags = { v := false, c := false, n := n, z := z } ∧ t.pc = pc)
  | .fault _ => false
  | .refused _ => false

theorem test_mova : gives (.mova 1 2) (small 2 0x8000 3 0 9) 1 0x8000 false false 10 = true := by decide
theorem test_inc : gives (.inc 3 3) (small 3 0xFFFF 0 0 9) 3 0 false false 10 = true := by decide
theorem test_inc_no_n : gives (.inc 2 1) (small 1 0x7FFF 0 0 9) 2 0x8000 false false 10 = true := by decide
theorem test_add_wraps : gives (.add 2 0 1) (small 0 0xFFFF 1 1 9) 2 0 false true 10 = true := by decide
theorem test_add_doubles : gives (.add 1 1 1) (small 0 0 1 0x4001 9) 1 0x8002 true false 10 = true := by decide
theorem test_sub_order : gives (.sub 4 5 6) (small 5 5 6 7 9) 4 0xFFFE true false 10 = true := by decide
theorem test_sub_sign : gives (.sub 4 5 6) (small 5 0x8000 6 1 9) 4 0x7FFF false false 10 = true := by decide
theorem test_dec_wraps : gives (.dec 0 0) (small 0 0 1 0 9) 0 0xFFFF true false 10 = true := by decide
theorem test_dec_zero : gives (.dec 0 0) (small 0 1 1 0 9) 0 0 false true 10 = true := by decide
theorem test_and : gives (.and 1 2 3) (small 2 0xF0F0 3 0xFF00 9) 1 0xF000 true false 10 = true := by decide
theorem test_or : gives (.or 7 6 5) (small 6 0x00F0 5 0x000F 9) 7 0x00FF false false 10 = true := by decide
theorem test_xor : gives (.xor 1 2 3) (small 2 0xFFFF 3 0x00FF 9) 1 0xFF00 true false 10 = true := by decide
theorem test_not : gives (.not 1 0) (small 0 0x8000 2 0 9) 1 0x7FFF false false 10 = true := by decide
theorem test_movb : gives (.movb 2 7) (small 7 0x1234 0 0 9) 2 0x1234 false false 10 = true := by decide
theorem test_shr : gives (.shr 3 4) (small 4 0x8001 0 0 9) 3 0x4000 false false 10 = true := by decide
theorem test_shl : gives (.shl 5 5) (small 5 0x8001 0 0 9) 5 0x0002 false false 10 = true := by decide
theorem test_ldi : gives (.ldi 1 4) (small 4 0xAAAA 1 0x1234 9) 1 4 false false 10 = true := by decide
theorem test_ldi_zero : gives (.ldi 1 0) (small 1 0x1234 0 0 9) 1 0 false false 10 = true := by decide
theorem test_adi : gives (.adi 2 2 7) (small 2 0x7FFA 0 0 9) 2 0x8001 true false 10 = true := by decide
theorem test_adi_wraps : gives (.adi 2 2 7) (small 2 0xFFF9 0 0 9) 2 0 false true 10 = true := by decide

/-- `ld r2,r2` reads through the old `x[2]` (section 2.5). -/
theorem test_ld_same_register :
    gives (.ld 2 2) { small 2 5 0 0 9 with dm := [(10, 0xBE), (11, 0xEF)] } 2 0xBEEF false false 10 = true := by decide

/-- The last data word, and the source's byte-order test S3. -/
theorem test_st_bytes :
    (match exec (.st 3 1) (small 3 0xFFFF 1 0xA55A 9) with
      | .next t => t.dm
      | _ => []) = [(131070, 0xA5), (131071, 0x5A)] ∧
    (match exec (.st 0 1) (small 0 0 1 0x1234 9) with
      | .next t => t.dm
      | _ => []) = [(0, 0x12), (1, 0x34)] := by decide

theorem test_brz_taken : gives (.brz 0 4) (small 0 0 1 0 3) 0 0 false false 7 = true := by decide
theorem test_brz_wraps : gives (.brz 0 (-5)) (small 0 0 1 0 3) 0 0 false false 0xFFFE = true := by decide
theorem test_brn_taken : gives (.brn 1 (-32)) (small 1 0x8000 0 0 100) 1 0x8000 false false 68 = true := by decide
theorem test_brn_untaken : gives (.brn 1 (-32)) (small 1 0x7FFF 0 0 100) 1 0x7FFF false false 101 = true := by decide
theorem test_jmp : gives (.jmp 0) (small 0 7 1 0 5) 0 7 false false 7 = true := by decide

/-! ## The step frame (95_test_vectors.md sections 2.7 and 2.8) -/

/-- The state with a program loaded. -/
def loaded (program : List Word) (s : State) : State := { s with pm := program }

theorem test_step_end : step State.reset = .next { State.reset with runState := .halted } := rfl

theorem test_step_illegal :
    (match step (loaded [0x9801, 0x0600, 0x9802] (small 0 1 1 0 1)) with
      | .fault (.illegalOpcode op) => op
      | _ => 0) = 0x03 := by decide

theorem test_illegal_beyond_end_is_not_fetched :
    (stepResult (loaded [0, 0, 0, 0, 0] (small 0 0 1 0 5))).outcome = .endOfProgram := by decide

theorem test_pc_wraps : nextPc 65535 none = 0 := by decide

theorem test_self_branch :
    (stepResult (loaded [0x1400, 0xC000] (small 0 0 1 0 1))).outcome = .selfBranchHalt ∧
    (stateAfter (loaded [0x1400, 0xC000] (small 0 0 1 0 1))).runState = .halted := by decide

theorem test_reset_keeps_memories :
    let s : State := { small 0 0xFFFF 2 0x8000 15 with runState := .halted, dm := [(13, 0x0F)], pm := [0x9803] }
    (resetRequest s).x = Vector.replicate 8 0 ∧ (resetRequest s).dm = [(13, 0x0F)] ∧ (resetRequest s).pm = [0x9803] ∧
    (resetRequest s).runState = .idle := by decide

/-- The vector "`ld r4,r3` after an environment write" of section 2.5. -/
theorem test_environment_write_is_seen :
    gives (.ld 4 3) (environmentWrite ⟨12, by decide⟩ 0xFF { small 3 6 0 0 9 with dm := [(13, 0x0F)] }) 4 0xFF0F
      false false 10 = true := by decide

theorem test_reset_outranks_step : arbitrate true true = some .reset := by decide

theorem test_withFetchWord : (State.reset.withFetchWord 16 0x9803).pm = [0x9803] := by decide

/-! ## Witnesses: a state and operands that meet the hypotheses of each statement -/

theorem witness_EncodePacksFields : ∃ w, w = encode (.brz 2 (-3)) ∧ w = 0xC1D5 := ⟨_, rfl, by decide⟩

theorem witness_BranchOffsetField :
    (∃ f : Fields, f.op = opcodeOf .brz) ∧ (∃ f : Fields, f.op = opcodeOf .brn) ∧
    takenTarget (.brz 0 4) (small 0 0 1 0 3) = some 7 ∧ takenTarget (.brn 1 (-32)) (small 1 0x8000 0 0 100) = some 68 ∧
    takenTarget (.jmp 0) (small 0 7 1 0 5) = some 7 ∧
    -- the two ends of the range of the sum: 65504 + 31 = 65535 and 32 - 32 = 0
    (((small 0 0 1 0 65504).pc.toNat : Int) + branchOffset 3 7 = 65535 ∧ (small 0 0 1 0 65504).x[(0 : Reg)].toNat = 0 ∧
      ∃ t, exec (.brz 0 (branchOffset 3 7)) (small 0 0 1 0 65504) = .next t) ∧
    (((small 0 0x8000 1 0 32).pc.toNat : Int) + branchOffset 4 0 = 0 ∧
      32768 ≤ (small 0 0x8000 1 0 32).x[(0 : Reg)].toNat ∧
      ∃ t, exec (.brn 0 (branchOffset 4 0)) (small 0 0x8000 1 0 32) = .next t) :=
  ⟨⟨⟨0x60, 0, 0, 0⟩, rfl⟩, ⟨⟨0x61, 0, 0, 0⟩, rfl⟩, by decide, by decide, by decide,
    ⟨by decide, by decide, _, exec_eq _ _⟩, ⟨by decide, by decide, _, exec_eq _ _⟩⟩

theorem witness_DecodeEncodeEveryEncoding :
    encoding.Admissible ∧ (Instr.brn 7 (-32)).wellFormed = true ∧ (Instr.adi 1 2 7).wellFormed = true ∧
    ∃ e : Encoding, e.Admissible ∧ e.jmpField = .ba ∧ e.opcode .mova = 0x7F :=
  ⟨encoding_admissible, by decide, by decide,
    ⟨fun m => if m = .mova then 0x7F else opcodeOf m, .ba⟩,
    ⟨fun m n h => by cases m <;> cases n <;> first | rfl | exact absurd h (by decide), rfl⟩, rfl, rfl⟩

theorem witness_DecodedInstructionIsCanonical :
    encoding.Admissible ∧ decodeWith encoding 0x0057 = .ok (.mova 1 2) := ⟨encoding_admissible, by decide⟩

theorem witness_DecodeRejectsExactlyUnassigned :
    (Fields.ofWord 0x4C03).op = 0x26 ∧ (Fields.ofWord 0x9803).op = 0x4C := by decide

theorem witness_BrzResult :
    gives (.brz 0 31) (small 0 0 1 0 65520) 0 0 false false 15 = true ∧
    gives (.brz 0 (-32)) (small 0 0 1 0 32) 0 0 false false 0 = true ∧
    gives (.brz 0 0) (small 0 1 1 0 1) 0 1 false false 2 = true := by decide

theorem witness_BrnResult :
    gives (.brn 2 31) (small 2 0x8000 0 0 10) 2 0x8000 false false 41 = true ∧
    gives (.brn 2 (-32)) (small 2 0x7FFF 0 0 10) 2 0x7FFF false false 11 = true ∧
    gives (.brn 2 0) (small 2 0xFFFF 0 0 5) 2 0xFFFF false false 5 = true := by decide

theorem witness_RegisterWriteFrame :
    (Instr.ld 4 3).destination = some 4 ∧ ∃ t, exec (.ld 4 3) (small 3 6 0 0 9) = .next t := ⟨rfl, _, exec_eq _ _⟩

theorem witness_StoreFrame :
    (small 3 0xFFFF 1 0xA55A 9).dm.wf ∧ ∃ t, exec (.st 3 1) (small 3 0xFFFF 1 0xA55A 9) = .next t :=
  ⟨by decide, _, exec_eq _ _⟩

theorem witness_ControlTransferFrame :
    (∃ t, exec (.brz 0 4) (small 0 0 1 0 3) = .next t) ∧ (∃ t, exec (.brn 0 4) (small 0 0 1 0 3) = .next t) ∧
    ∃ t, exec (.jmp 0) (small 0 7 1 0 5) = .next t := ⟨⟨_, exec_eq _ _⟩, ⟨_, exec_eq _ _⟩, ⟨_, exec_eq _ _⟩⟩

theorem witness_ReadsOnlySources :
    ∀ r ∈ (Instr.ldi 1 4).sources, (small 4 0xAAAA 0 0 9).x[r] = (small 4 0 0 0 9).x[r] := by decide

theorem witness_FlagClasses :
    (∃ t, exec (.adi 2 2 7) (small 2 0xFFF9 0 0 9) = .next t) ∧ (Instr.adi 2 2 7).mnemonic = .adi ∧
    (∃ t, exec (.inc 3 3) (small 3 0xFFFF 0 0 9) = .next t) ∧ (Instr.inc 3 3).mnemonic = .inc :=
  ⟨⟨_, exec_eq _ _⟩, rfl, ⟨_, exec_eq _ _⟩, rfl⟩

theorem witness_FlagsAndRunStateNeverRead :
    (stepResult (loaded [0x0481] (small 0 3 1 4 0))).decoded ≠ none ∧
    ∃ t, step (loaded [0x0481] (small 0 3 1 4 0)) = .next t := ⟨by decide, _, rfl⟩

theorem witness_StepRunsDecoded :
    (loaded [0x0481] (small 0 3 1 4 0)).pc.toNat < (loaded [0x0481] (small 0 3 1 4 0)).progLen ∧
    (loaded [0x0481] (small 0 3 1 4 0)).pm[(loaded [0x0481] (small 0 3 1 4 0)).pc.toNat]? = some 0x0481 ∧
    decode 0x0481 = .ok (.add 2 0 1) := by decide

theorem witness_StepRunsEncoded :
    (Instr.add 2 0 1).wellFormed = true ∧
    (loaded [0x0481] (small 0 3 1 4 0)).pm[(loaded [0x0481] (small 0 3 1 4 0)).pc.toNat]? = some (encode (.add 2 0 1)) := by
  decide

/-- At the end and past it. -/
theorem witness_StepAtProgramEnd :
    (loaded [0, 0, 0] (small 0 0 1 0 3)).progLen ≤ (loaded [0, 0, 0] (small 0 0 1 0 3)).pc.toNat ∧
    (loaded [0, 0, 0] (small 0 0 1 0 40000)).progLen ≤ (loaded [0, 0, 0] (small 0 0 1 0 40000)).pc.toNat := by decide

theorem witness_UnrecognizedOpcodeFaults :
    (loaded [0x0600] (small 0 1 1 0 0)).pc.toNat < (loaded [0x0600] (small 0 1 1 0 0)).progLen ∧
    (loaded [0x0600] (small 0 1 1 0 0)).pm[(loaded [0x0600] (small 0 1 1 0 0)).pc.toNat]? = some 0x0600 ∧
    ∀ m : Mnemonic, opcodeOf m ≠ (Fields.ofWord 0x0600).op :=
  ⟨by decide, by decide, fun m => by cases m <;> decide⟩

theorem witness_NothingElseFaults :
    step (loaded [0x0600] (small 0 1 1 0 0)) = .fault (.illegalOpcode 0x03) := rfl

theorem witness_HaltsAreNotFaults :
    (stepResult (loaded [] (small 0 0 1 0 0))).outcome = .endOfProgram ∧
    (stepResult (loaded [0xC000] (small 0 0 1 0 0))).outcome = .selfBranchHalt ∧
    (stepResult (loaded [0x0600] (small 0 0 1 0 0))).outcome = .illegalOpcode := by decide

theorem witness_PcResolution :
    takenTarget (.brz 0 0) (small 0 1 1 0 1) = none ∧ takenTarget (.brz 0 1) (small 0 0 1 0 9) = some 10 ∧
    takenTarget (.jmp 0) (small 0 7 1 0 7) = some (small 0 7 1 0 7).pc := by decide

theorem witness_TakenExactly :
    (Instr.brz 0 31).wellFormed = true ∧ takenTarget (.brz 0 31) (small 0 0 1 0 65520) = some 15 ∧
    (Instr.brn 1 (-32)).wellFormed = true ∧ takenTarget (.brn 1 (-32)) (small 1 0x8000 0 0 100) = some 68 ∧
    (Instr.jmp 6).wellFormed = true ∧ takenTarget (.jmp 6) (small 6 0xFFFF 0 0 2) = some 0xFFFF := by decide

theorem witness_StoppedStaysStopped :
    (stepResult (loaded [] (small 0 0 1 0 0))).continues = false ∧
    (stepResult (loaded [0xE000] (small 0 0 1 0 0))).continues = false ∧
    (stepResult (loaded [0xFFFF] (small 0 0 1 0 0))).continues = false := by decide

theorem witness_FetchReadsOnlyPc :
    ([0x0481, 0xFFFF] : List Word)[(loaded [0x0481] (small 0 3 1 4 0)).pc.toNat]? =
      (loaded [0x0481] (small 0 3 1 4 0)).pm[(loaded [0x0481] (small 0 3 1 4 0)).pc.toNat]? := by decide

/-- An in-range instruction, and one whose immediate is cut to its field. -/
theorem witness_MeaningSeesOnlyTheWord :
    decode (encode (.ldi 1 7)) = .ok (.ldi 1 7) ∧ decode (encode (.ldi 1 9)) = .ok (.ldi 1 1) := by decide

theorem witness_ByteViewBigEndian :
    (small 0 0 1 0x1234 9).dm.wf ∧ (small 0 0 1 0x1234 9).x[(0 : Reg)] = 0 ∧
    (small 0 0 1 0x1234 9).x[(1 : Reg)] = 0x1234 ∧ ∃ t, exec (.st 0 1) (small 0 0 1 0x1234 9) = .next t :=
  ⟨by decide, by decide, by decide, _, exec_eq _ _⟩

theorem witness_MemReadByLdOnly :
    (∃ t, exec (.ld 4 3) (small 3 6 0 0 9) = .next t) ∧
    (small 3 6 0 0 9).dm.wf ∧ 12 = 2 * (small 3 6 0 0 9).x[(3 : Reg)].toNat ∧
    (∃ t, (Action.write ⟨12, by decide⟩ 0xFF).apply (small 3 6 0 0 9) = some t ∧ ∃ u, exec (.ld 4 3) t = .next u) ∧
    (∃ t, (Action.write ⟨13, by decide⟩ 0xFF).apply (small 3 6 0 0 9) = some t ∧ ∃ u, exec (.ld 4 3) t = .next u) ∧
    ∀ rd ra, Instr.st 3 1 ≠ .ld rd ra :=
  ⟨⟨_, exec_eq _ _⟩, by decide, by decide, ⟨_, rfl, _, exec_eq _ _⟩, ⟨_, rfl, _, exec_eq _ _⟩, fun _ _ h => nomatch h⟩

theorem witness_MemWriteByStOnly :
    Memory.wf [(131070, 0xA5), (131071, 0x5A)] ∧ (∃ t, exec (.st 3 1) (small 3 6 1 15 9) = .next t) ∧
    ∃ t, exec (.ld 4 3) (small 3 6 1 15 9) = .next t := ⟨by decide, ⟨_, exec_eq _ _⟩, ⟨_, exec_eq _ _⟩⟩

/-- Both branches of the conclusion: the same address, and another one. -/
theorem witness_StoreThenLoad :
    (small 3 6 1 15 9).dm.wf ∧ (∃ t, exec (.st 3 1) (small 3 6 1 15 9) = .next t ∧ ∃ u, exec (.ld 4 3) t = .next u) ∧
    (small 3 6 1 15 9).x[(1 : Reg)] ≠ (small 3 6 1 15 9).x[(3 : Reg)] :=
  ⟨by decide, ⟨_, exec_eq _ _, _, exec_eq _ _⟩, by decide⟩

theorem witness_NoTranslationOrProtection :
    step (loaded [0x0600] (small 0 1 1 0 0)) = .fault (.illegalOpcode 0x03) := rfl

theorem witness_CanonicalMemoryIsUnique :
    Memory.wf [(0, 0x12), (131071, 0x34)] ∧ ¬ Memory.wf [(0, 0)] ∧ ¬ Memory.wf [(131072, 1)] ∧
    ¬ Memory.wf [(1, 1), (0, 1)] := by decide

/-- Each case of the conclusion: a store, a load, no access, and no fetch. -/
theorem witness_PortsAgreeWithStep :
    (portActivity (loaded [0x4001] (small 0 6 1 15 0))).data = some (.write 6 15) ∧
    (portActivity { loaded [0x2100] (small 0 6 1 15 0) with dm := [(13, 0x0F)] }).data = some (.read 6 0x000F) ∧
    (portActivity (loaded [0x0481] (small 0 6 1 15 0))).data = none ∧
    (portActivity (loaded [] (small 0 6 1 15 0))).fetched = none := by decide

/-- A step that stores, an environment write over its low byte, a reset and a program load. -/
theorem witness_LastWriteIsRead :
    (loaded [0x4001] (small 0 0 1 0x1234 0)).dm.wf ∧
    ∃ t, performAll [.step, .write ⟨1, by decide⟩ 0xFF, .reset, .load [0x9803]] (loaded [0x4001] (small 0 0 1 0x1234 0)) =
      some t := ⟨by decide, _, rfl⟩

theorem witness_ProgramMemoryImmutable :
    (∃ t, exec (.st 3 1) (small 3 6 1 15 9) = .next t) ∧ (∃ t, Action.step.apply State.reset = some t) ∧
    (∀ p, Action.step ≠ .load p) ∧ ∃ t, (Action.load [0x9803]).apply State.reset = some t :=
  ⟨⟨_, exec_eq _ _⟩, ⟨_, rfl⟩, fun _ h => (nomatch h), ⟨_, rfl⟩⟩

theorem witness_ResetRequestEffect :
    (stepResult (loaded [0xFFFF] (small 0 0 1 0 0))).continues = false ∧
    ∃ t, performAll [.step, .write ⟨1, by decide⟩ 0xFF] (stateAfter (loaded [0xFFFF] (small 0 0 1 0 0))) = some t :=
  ⟨by decide, _, rfl⟩

theorem witness_InvAtReset : ([0x9803, 0x9844] : List Word).length ≤ 65536 ∧ Memory.wf [(13, 0x0F)] := by decide

theorem witness_Inv : Inv (loaded [0x0481] State.reset) :=
  ⟨by decide, by decide, rfl, rfl, by decide⟩

theorem witness_StepKeepsInv : ∃ t, step (loaded [0x0481] State.reset) = .next t := ⟨_, rfl⟩

theorem witness_MovesKeepInv : ∃ t, performAll [.step, .reset] (loaded [0x0481] State.reset) = some t := ⟨_, rfl⟩

theorem witness_RunEndsAtFirstStop :
    (∃ t, run 2 (loaded [0x9803] State.reset) = .ended .endOfProgram t) ∧
    (∃ t, run 1 (loaded [0xC000] State.reset) = .ended .selfBranchHalt t) ∧
    ∃ t, run 1 (loaded [0xFFFF] State.reset) = .ended .illegalOpcode t := ⟨⟨_, rfl⟩, ⟨_, rfl⟩, ⟨_, rfl⟩⟩

end Sys2Proof.Tests
end

section
/-! SUPPORT. Data memory (20_memory.md): its two views, what `ld` reads and `st` writes, and what no data access can do. -/

namespace Sys2Proof.Machine

/-! ## The two views -/

/-- The high byte of a word read from memory is the byte at `2a` (R40). -/
@[simp] theorem highByte_readWord (m : Memory) (a : Word) : highByte (m.readWord a) = m.readByte (highByteAddr a) :=
  highByte_append _ _

/-- The low byte of a word read from memory is the byte at `2a + 1` (R40). -/
@[simp] theorem lowByte_readWord (m : Memory) (a : Word) : lowByte (m.readWord a) = m.readByte (lowByteAddr a) :=
  lowByte_append _ _

/-- The word read from memory as a number (R40). -/
theorem readWord_toNat (m : Memory) (a : Word) :
    (m.readWord a).toNat = (m.readByte (highByteAddr a)).toNat * 256 + (m.readByte (lowByteAddr a)).toNat :=
  append_toNat _ _

/-- The word a byte address below 131072 belongs to is the one at half of it (R40). -/
theorem byteAddr_iff {k : Nat} (hk : k < 131072) (a : Word) :
    k = 2 * a.toNat ∨ k = 2 * a.toNat + 1 ↔ a = BitVec.ofNat 16 (k / 2) := by
  have half : (BitVec.ofNat 16 (k / 2)).toNat = k / 2 := by
    rw [BitVec.toNat_ofNat]
    omega
  rw [← BitVec.toNat_inj, half]
  omega

/-- The high byte after a word write (R45). -/
theorem readByte_writeWord_high {m : Memory} (h : m.wf) (a v : Word) :
    (m.writeWord a v).readByte (highByteAddr a) = highByte v := by
  rw [← highByte_readWord, readWord_writeWord h, if_pos rfl]

/-- The low byte after a word write (R45). -/
theorem readByte_writeWord_low {m : Memory} (h : m.wf) (a v : Word) :
    (m.writeWord a v).readByte (lowByteAddr a) = lowByte v := by
  rw [← lowByte_readWord, readWord_writeWord h, if_pos rfl]

/-- The word read just after a byte write holds that byte where it is one of the word's two (R44). -/
theorem readWord_writeByte {m : Memory} (h : m.wf) (k : Nat) (v : Byte) (a : Word) :
    (m.writeByte k v).readWord a =
      (if k = highByteAddr a then v else m.readByte (highByteAddr a)) ++
        (if k = lowByteAddr a then v else m.readByte (lowByteAddr a)) := by
  simp only [Memory.readWord, readByte_writeByte h]

/-! ## What `ld` and `st` leave -/

/-- `ld` leaves the word at the address in `x[ra]` in `x[rd]` (R140). -/
theorem exec_ld_reg {rd ra : Reg} {s t : State} (h : exec (.ld rd ra) s = .next t) :
    t.x[rd] = s.dm.readWord s.x[ra] := by
  rw [exec_next h]
  exact writeReg_same _ _ _

/-- `st` leaves data memory with the word of `x[rb]` written at the address in `x[ra]` (R141). -/
theorem exec_st_dm {ra rb : Reg} {s t : State} (h : exec (.st ra rb) s = .next t) :
    t.dm = s.dm.writeWord s.x[ra] s.x[rb] := by
  rw [exec_next h]
  rfl

/-- An instruction other than `st` leaves data memory as it was (R45). -/
theorem exec_dm_of_ne_st {i : Instr} {s t : State} (h : exec i s = .next t) (hi : ∀ ra rb, i ≠ .st ra rb) :
    t.dm = s.dm := by
  rcases effectOf_store i s with hs | ⟨ra, rb, he, -⟩
  · rw [exec_next h, commit_dm, hs]
  · exact absurd he (hi ra rb)

/-- The effect of an instruction other than `ld` does not depend on data memory (R44). -/
theorem effectOf_setDm {i : Instr} (hi : ∀ rd ra, i ≠ .ld rd ra) (s : State) (m : Memory) :
    effectOf i { s with dm := m } = effectOf i s := by
  cases i with
  | ld rd ra => exact absurd rfl (hi rd ra)
  | _ => rfl

/-- A step faults only where the opcode fetched is that of no mnemonic (R94, R160). -/
theorem step_fault {s : State} {f : Fault} (h : step s = .fault f) :
    ∃ op, f = .illegalOpcode op ∧ ∀ m : Mnemonic, opcodeOf m ≠ op := by
  rcases step_cases s with ⟨-, hs⟩ | ⟨w, -, hn, -, hs⟩ | ⟨w, i, -, -, hs⟩
  · rw [hs] at h
    nomatch h
  · rw [hs] at h
    exact ⟨_, (Host.Outcome.fault.inj h).symm, mnemonicOf_eq_none.1 hn⟩
  · rw [hs, exec_eq] at h
    nomatch h

/-! ## The statements -/

/-- Settles O46: the bytes of a word read, half the byte address, and the two bytes of a word write. -/
theorem byteViewBigEndian : Obligations.ByteViewBigEndian := by
  refine ⟨fun m a => ⟨readWord_toNat m a, (highByte_readWord m a).symm, (lowByte_readWord m a).symm⟩,
    fun k hk => ⟨BitVec.ofNat 16 (k / 2), (byteAddr_iff hk _).2 rfl, fun a ha => (byteAddr_iff hk a).1 ha⟩, ?_⟩
  intro ra rb s t hm ha hb h
  rw [exec_st_dm h, ha, hb]
  exact ⟨readByte_writeWord_high hm 0 0x1234, readByte_writeWord_low hm 0 0x1234⟩

/-- Settles O47: `ld` reads the bytes as they stand, and no other effect sees them. -/
theorem memReadByLdOnly : Obligations.MemReadByLdOnly := by
  refine ⟨fun m a => rfl, fun rd ra s t h => ⟨exec_ld_reg h, exec_dm_of_ne_st h fun _ _ e => nomatch e⟩, ?_, ?_⟩
  · intro rd ra k v s t u hm hw h
    obtain rfl : environmentWrite k v s = t := Option.some.inj hw
    rw [exec_ld_reg h]
    exact readWord_writeByte hm k v s.x[ra]
  · intro i s m hi
    refine ⟨_, _, exec_eq i s, exec_eq i _, ?_⟩
    rw [effectOf_setDm hi]
    exact ⟨rfl, rfl, rfl, rfl, rfl⟩

/-- Settles O48: read after write for each byte, and a case split on whether the instruction is `st`. -/
theorem memWriteByStOnly : Obligations.MemWriteByStOnly := by
  constructor
  · intro m a v hm
    refine ⟨readByte_writeWord_high hm a v, readByte_writeWord_low hm a v, ?_, fun k hhi hlo => ?_⟩
    · rw [readWord_writeWord hm, if_pos rfl]
    · rw [readByte_writeWord hm, highByteAddr, lowByteAddr, if_neg hhi, if_neg hlo]
  · intro i s t h
    by_cases hi : ∃ ra rb, i = .st ra rb
    · obtain ⟨ra, rb, rfl⟩ := hi
      exact .inl ⟨ra, rb, rfl, exec_st_dm h⟩
    · have ne : ∀ ra rb, i ≠ .st ra rb := fun ra rb e => hi ⟨ra, rb, e⟩
      exact .inr ⟨ne, exec_dm_of_ne_st h ne⟩

/-- Settles O50: every instruction completes, by one commit that never reads program memory. -/
theorem noTranslationOrProtection : Obligations.NoTranslationOrProtection :=
  ⟨fun rd ra s _ => ⟨_, exec_eq _ _, exec_ld_reg (exec_eq (.ld rd ra) s), rfl, rfl⟩,
    fun ra rb s => ⟨_, exec_eq _ _, exec_st_dm (exec_eq (.st ra rb) s), rfl⟩,
    fun _ _ h => step_fault h⟩

end Sys2Proof.Machine
end

section
/-! SUPPORT. The instruction word and its branch offset (30_encoding.md R62, R63). -/

namespace Sys2Proof

/-! ## The fields as numbers -/

/-- The opcode is bits 15 to 9 of the word (R62). -/
theorem ofWord_op_toNat (w : Word) : (Fields.ofWord w).op.toNat = w.toNat / 512 := by
  have := w.isLt
  simp only [Fields.ofWord, BitVec.extractLsb'_toNat, Nat.shiftRight_eq_div_pow]
  omega

/-- `da` is bits 8 to 6 of the word (R62). -/
theorem ofWord_da_toNat (w : Word) : (Fields.ofWord w).da.toNat = w.toNat / 64 % 8 := by
  simp only [Fields.ofWord, BitVec.extractLsb'_toNat, Nat.shiftRight_eq_div_pow]

/-- `aa` is bits 5 to 3 of the word (R62). -/
theorem ofWord_aa_toNat (w : Word) : (Fields.ofWord w).aa.toNat = w.toNat / 8 % 8 := by
  simp only [Fields.ofWord, BitVec.extractLsb'_toNat, Nat.shiftRight_eq_div_pow]

/-- `ba` is bits 2 to 0 of the word (R62). -/
theorem ofWord_ba_toNat (w : Word) : (Fields.ofWord w).ba.toNat = w.toNat % 8 := by
  simp only [Fields.ofWord, BitVec.extractLsb'_toNat, Nat.shiftRight_zero]

/-- `Encode` of the numbers of four fields is the word of the fields (R71). -/
theorem encodeFields_toNat (f : Fields) :
    encodeFields f.op.toNat f.da.toNat f.aa.toNat f.ba.toNat = f.toWord := by
  simp only [encodeFields, BitVec.ofNat_toNat, BitVec.setWidth_eq]

/-- The word of fields with a mnemonic's opcode decodes to that mnemonic's form (R61, R68). -/
theorem decode_toWord {f : Fields} {m : Mnemonic} (h : f.op = opcodeOf m) :
    decode f.toWord = .ok (Instr.ofFields jmpField m f) := by
  have hm : encoding.mnemonicOf? f.op = some m := h ▸ mnemonicOf_opcode encoding_admissible m
  rw [decode, decodeWith, ofWord_toWord, hm]
  rfl

/-! ## The branch offset -/

/-- The 6-bit offset field is `da*8 + ba` (R63). -/
theorem offsetField_toNat (da ba : Field3) : (da ++ ba : BitVec 6).toNat = da.toNat * 8 + ba.toNat := by
  rw [BitVec.toNat_append, ← Nat.shiftLeft_add_eq_or_of_lt ba.isLt, Nat.shiftLeft_eq]

/-- The offset as a case on its field: two's complement in 6 bits (R63). -/
theorem branchOffset_eq (da ba : Field3) :
    branchOffset da ba =
      if da.toNat * 8 + ba.toNat ≤ 31 then ((da.toNat * 8 + ba.toNat : Nat) : Int)
        else ((da.toNat * 8 + ba.toNat : Nat) : Int) - 64 := by
  rw [branchOffset, BitVec.toInt_eq_toNat_cond, offsetField_toNat]
  split <;> split <;> omega

/-- The sign of the offset is bit 2 of `da` (R63). -/
theorem branchOffset_neg_iff (da ba : Field3) : branchOffset da ba < 0 ↔ da.getLsbD 2 = true := by
  have sign : (da ++ ba : BitVec 6).msb = da.getLsbD 2 := by
    rw [BitVec.msb_append]
    rfl
  rw [branchOffset, ← sign, BitVec.msb_eq_toInt, decide_eq_true_iff]

end Sys2Proof

namespace Sys2Proof.Machine

/-- Only `brz`, `brn` and `jmp` take a target, and `jmp`'s is its register (R63, R95). -/
theorem branch_or_jmp_of_takenTarget {i : Instr} {s : State} {a : Word} (h : takenTarget i s = some a) :
    (∃ ra off, i = .brz ra off) ∨ (∃ ra off, i = .brn ra off) ∨ ∃ ra, i = .jmp ra ∧ a = s.x[ra] := by
  cases i with
  | brz ra off => exact .inl ⟨ra, off, rfl⟩
  | brn ra off => exact .inr (.inl ⟨ra, off, rfl⟩)
  | jmp ra => exact .inr (.inr ⟨ra, rfl, (Option.some.inj h).symm⟩)
  | _ => nomatch h

/-- An executed instruction that takes a target leaves `pc` there (R98, R99). -/
theorem exec_pc_of_taken {i : Instr} {s t : State} {a : Word} (h : exec i s = .next t)
    (ha : takenTarget i s = some a) : t.pc = a := by
  rw [exec_next h, commit_pc, effectOf_target, ha, nextPc_some]

/-- The branch-offset adder does not wrap where the sum is an address (R63, R152). -/
theorem branchTarget_toNat_of_no_wrap {off : Int} (h : offsetInRange off = true) {s : State}
    (h0 : 0 ≤ (s.pc.toNat : Int) + off) (h1 : (s.pc.toNat : Int) + off ≤ 65535) :
    ((branchTarget off s).toNat : Int) = s.pc.toNat + off := by
  rw [branchTarget_toNat h, Int.emod_eq_of_lt h0 (Int.lt_of_le_of_lt h1 (by decide))]

/-! ## The statements -/

/-- Settles O3: the offset by cases on its field, the two opcodes decoded, and the target of a taken branch left in `pc` by
the commit. -/
theorem branchOffsetField : Obligations.BranchOffsetField := by
  refine ⟨fun da ba => ?_, by decide, by decide, by decide, fun f => ⟨decode_toWord, decode_toWord⟩,
    fun _ _ _ => branch_or_jmp_of_takenTarget, ?_⟩
  · obtain ⟨lo, hi⟩ := of_decide_eq_true (offsetInRange_branchOffset da ba)
    exact ⟨branchOffset_eq da ba, lo, hi, branchOffset_neg_iff da ba⟩
  · intro ra da ba s t h0 h1 taken
    have hpc : t.pc = branchTarget (branchOffset da ba) s := by
      rcases taken with ⟨zero, h⟩ | ⟨negative, h⟩
      · exact exec_pc_of_taken h (brzTarget_eq_some.2 ⟨zero, rfl⟩)
      · exact exec_pc_of_taken h (brnTarget_eq_some.2 ⟨negative, rfl⟩)
    rw [hpc, branchTarget_toNat_of_no_wrap (offsetInRange_branchOffset da ba) h0 h1]

/-- Settles O1: each field is its bits of the word, and the four fields and the word determine each other. -/
theorem decodeExtractsFields : Obligations.DecodeExtractsFields := by
  refine ⟨fun w => ⟨ofWord_op_toNat w, ofWord_da_toNat w, ofWord_aa_toNat w, ofWord_ba_toNat w, ?_⟩,
    fun op da aa ba => ?_⟩
  · rw [encodeFields_toNat, toWord_ofWord]
  · rw [encodeFields_toNat ⟨op, da, aa, ba⟩, ofWord_toWord]

end Sys2Proof.Machine
end

section
/-! SUPPORT. The step that meets an unrecognized opcode (40_step_cycle.md R94): an equation each for the step, its result and
the state it leaves. -/

namespace Sys2Proof

/-- A word whose opcode is that of no mnemonic is rejected with that opcode (R68, R161). -/
theorem decode_unrecognized {w : Word} (h : ∀ m : Mnemonic, opcodeOf m ≠ (Fields.ofWord w).op) :
    decode w = .error (.unrecognizedOpcode (Fields.ofWord w).op) :=
  decodeWith_error.2 ⟨mnemonicOf_eq_none.2 h, rfl⟩

end Sys2Proof

namespace Sys2Proof.Machine

/-- A step whose word is rejected ends in the fault (R94). -/
theorem step_of_decode_error {s : State} {w : Word} {op : Opcode} (hf : s.fetch = some w)
    (hd : decode w = .error (.unrecognizedOpcode op)) : step s = .fault (.illegalOpcode op) := by
  simp only [step, hf, hd, raiseIllegalOpcode]

/-- The result of a step whose word is rejected reports the opcode (R101, R161). -/
theorem stepResult_of_decode_error {s : State} {w : Word} {op : Opcode} (hf : s.fetch = some w)
    (hd : decode w = .error (.unrecognizedOpcode op)) :
    stepResult s = { continues := false, outcome := .illegalOpcode, decoded := none, faultOp := some op } := by
  simp only [stepResult, hf, hd]

/-- A fault leaves the state as it was but for `run_state` (R94, R160). -/
theorem stateAfter_of_step_fault {s : State} {f : Fault} (h : step s = .fault f) : stateAfter s = faultedState s := by
  cases f
  simp only [stateAfter, h]

/-! ## The statements -/

/-- Settles O37: the word fetched is rejected, so the step faults, and the state a fault leaves has every field but
`run_state` as before. -/
theorem unrecognizedOpcodeFaults : Obligations.UnrecognizedOpcodeFaults := by
  intro s w _ hf hop
  have hd := decode_unrecognized hop
  have hstep := step_of_decode_error hf hd
  rw [stepResult_of_decode_error hf hd, stateAfter_of_step_fault hstep]
  exact ⟨hstep, rfl, rfl, rfl, rfl, rfl, rfl, hf⟩

end Sys2Proof.Machine
end

section
/-! SUPPORT. The two halts (60_exceptions.md R163): what the step did and what its result reports, read from the outcome. -/

namespace Sys2Proof.Machine

/-! ## The result of an executed instruction -/

/-- An instruction that takes its own address as target ends in the self-branch halt (R99, R101). -/
theorem executedResult_of_self {i : Instr} {s : State} (w : Word) (h : takenTarget i s = some s.pc) :
    executedResult w i s = { continues := false, outcome := .selfBranchHalt,
                             decoded := some (Fields.ofWord w, i.mnemonic), faultOp := none } := by
  simp [executedResult, selfBranch, h]

/-- An instruction that does not take its own address as target is executed, and the core goes on (R97, R98, R101). -/
theorem executedResult_of_ne {i : Instr} {s : State} (w : Word) (h : takenTarget i s ≠ some s.pc) :
    executedResult w i s = { continues := true, outcome := .executed,
                             decoded := some (Fields.ofWord w, i.mnemonic), faultOp := none } := by
  simp [executedResult, selfBranch, h]

/-! ## The step behind each halt -/

/-- The outcome `EndOfProgram` is that of a step that did nothing but halt (R91). -/
theorem step_of_endOfProgram {s : State} (h : (stepResult s).outcome = .endOfProgram) :
    step s = .next (endOfProgram s) ∧
      stepResult s = { continues := false, outcome := .endOfProgram, decoded := none, faultOp := none } := by
  rcases step_result_cases s with ⟨-, hs, -, hr⟩ | ⟨w, -, -, -, -, -, hr⟩ | ⟨w, i, -, -, -, -, hr⟩
  · exact ⟨hs, hr⟩
  · rw [hr] at h
    nomatch h
  · by_cases self : takenTarget i s = some s.pc
    · rw [hr, executedResult_of_self w self] at h
      nomatch h
    · rw [hr, executedResult_of_ne w self] at h
      nomatch h

/-- The outcome `SelfBranchHalt` is that of a step that executed an instruction whose target is its own address (R99). -/
theorem step_of_selfBranchHalt {s : State} (h : (stepResult s).outcome = .selfBranchHalt) :
    ∃ w i, takenTarget i s = some s.pc ∧ step s = .next (commit (effectOf i s) s) ∧
      stepResult s = { continues := false, outcome := .selfBranchHalt,
                       decoded := some (Fields.ofWord w, i.mnemonic), faultOp := none } := by
  rcases step_result_cases s with ⟨-, -, -, hr⟩ | ⟨w, -, -, -, -, -, hr⟩ | ⟨w, i, -, -, hs, -, hr⟩
  · rw [hr] at h
    nomatch h
  · rw [hr] at h
    nomatch h
  · by_cases self : takenTarget i s = some s.pc
    · exact ⟨w, i, self, hs, hr.trans (executedResult_of_self w self)⟩
    · rw [hr, executedResult_of_ne w self] at h
      nomatch h

/-- A taken branch or jump clears the flags, leaves `pc` at its target, and keeps the registers and data memory (R98, R99,
R154). -/
theorem commit_of_taken {i : Instr} {s : State} {a : Word} (h : takenTarget i s = some a) :
    (commit (effectOf i s) s).flags = Flags.cleared ∧ (commit (effectOf i s) s).pc = a ∧
      (commit (effectOf i s) s).x = s.x ∧ (commit (effectOf i s) s).dm = s.dm := by
  obtain ⟨dst, store, flags⟩ := effectOf_of_taken h
  refine ⟨flags, exec_pc_of_taken (exec_eq i s) h, ?_, ?_⟩
  · rw [commit_x, dst]
  · rw [commit_dm, store]

/-! ## The statements -/

/-- Settles O39: each halt outcome gives its step and its whole result; the self-branch's next state is the commit of a taken
branch. -/
theorem haltsAreNotFaults : Obligations.HaltsAreNotFaults := by
  refine fun s => ⟨fun h => ?_, fun h => ?_, fun h => ?_⟩
  · obtain ⟨hs, hr⟩ := step_of_endOfProgram h
    rw [hr]
    exact ⟨rfl, rfl, rfl, _, hs, rfl, rfl, rfl, rfl, rfl⟩
  · obtain ⟨w, i, self, hs, hr⟩ := step_of_selfBranchHalt h
    rw [hr]
    exact ⟨rfl, rfl, rfl, i, _, hs, exec_eq i s, self, commit_of_taken self⟩
  · rw [h]
    rfl

end Sys2Proof.Machine
end

section
/-! SUPPORT. The reset request and the stop it alone can leave (70_reset_and_hazards.md R180): the result of a step depends only
on registers, `pc` and program memory, which neither a stopping step nor an environment write changes. -/

namespace Sys2Proof.Machine

/-! ## Reset -/

/-- Every register reads 0 after a reset (R180). -/
theorem resetRequest_reg (s : State) (r : Reg) : (resetRequest s).x[r] = 0 := Vector.getElem_replicate r.isLt

/-- A reset depends on the two memories alone (R180). -/
theorem resetRequest_congr {s u : State} (hpm : s.pm = u.pm) (hdm : s.dm = u.dm) : resetRequest s = resetRequest u := by
  simp only [resetRequest, hpm, hdm]

/-! ## What the step result depends on -/

/-- The branch taken depends on the registers and `pc` alone (R150 to R153). -/
theorem takenTarget_congr {s u : State} (i : Instr) (hx : s.x = u.x) (hpc : s.pc = u.pc) :
    takenTarget i s = takenTarget i u := by
  have hread : ∀ r, s.read r = u.read r := fun r => by rw [read_eq, read_eq, hx]
  have hbranch : ∀ off, branchTarget off s = branchTarget off u := fun off => by rw [branchTarget, branchTarget, hpc]
  cases i with
  | brz ra off => simp only [takenTarget, brzTarget, hread, hbranch]
  | brn ra off => simp only [takenTarget, brnTarget, hread, hbranch]
  | jmp ra => simp only [takenTarget, jmpTarget, hread]
  | _ => rfl

/-- The step result depends on the registers, `pc` and program memory alone (R101). -/
theorem stepResult_congr {s u : State} (hx : s.x = u.x) (hpc : s.pc = u.pc) (hpm : s.pm = u.pm) :
    stepResult s = stepResult u := by
  have hfetch : s.fetch = u.fetch := by rw [State.fetch, State.fetch, hpm, hpc]
  have hexec : ∀ w i, executedResult w i s = executedResult w i u := fun w i => by
    simp only [executedResult, takenTarget_congr i hx hpc, hpc]
  simp only [stepResult, hfetch, hexec]

/-! ## A stop stays a stop -/

/-- An executed instruction stops the core only where it takes its own address as target (R99, R101). -/
theorem self_of_executedResult_stop {w : Word} {i : Instr} {s : State} (h : (executedResult w i s).continues = false) :
    takenTarget i s = some s.pc := by
  by_contra ne
  rw [executedResult_of_ne w ne] at h
  nomatch h

/-- A step that stops leaves registers, `pc` and program memory as they were, and `run_state` halted (R91, R94, R99). -/
theorem stateAfter_of_stop {s : State} (h : (stepResult s).continues = false) :
    (stateAfter s).x = s.x ∧ (stateAfter s).pc = s.pc ∧ (stateAfter s).pm = s.pm ∧ (stateAfter s).runState = .halted := by
  rcases step_result_cases s with ⟨-, -, ha, -⟩ | ⟨w, -, -, -, -, ha, -⟩ | ⟨w, i, -, -, -, ha, hr⟩
  · rw [ha]
    exact ⟨rfl, rfl, rfl, rfl⟩
  · rw [ha]
    exact ⟨rfl, rfl, rfl, rfl⟩
  · rw [hr] at h
    have self := self_of_executedResult_stop h
    obtain ⟨-, hpc, hx, -⟩ := commit_of_taken self
    rw [ha]
    refine ⟨hx, hpc, rfl, ?_⟩
    rw [commit_runState, effectOf_target, self, nextRunState_some, if_pos rfl]

/-- The core has stopped: `run_state` is halted, and the next step stops again (R102, R180). -/
def Stopped (s : State) : Prop := s.runState = .halted ∧ (stepResult s).continues = false

/-- The state a stopping step leaves is stopped (R102). -/
theorem stopped_stateAfter {s : State} (h : (stepResult s).continues = false) : Stopped (stateAfter s) := by
  obtain ⟨hx, hpc, hpm, hrun⟩ := stateAfter_of_stop h
  exact ⟨hrun, by rw [stepResult_congr hx hpc hpm, h]⟩

/-- An environment write leaves a stopped core stopped (R180). -/
theorem stopped_environmentWrite {s : State} (h : Stopped s) (k : Fin Config.dataBytes) (v : Byte) :
    Stopped (environmentWrite k v s) := by
  obtain ⟨hrun, hstop⟩ := h
  have same : stepResult (environmentWrite k v s) = stepResult s := stepResult_congr rfl rfl rfl
  exact ⟨hrun, by rw [same, hstop]⟩

/-- What each of the moves keeps, the sequence of them keeps (R105). -/
theorem performAll_keeps {P : State → Prop} {moves : List Action}
    (keep : ∀ a ∈ moves, ∀ s t, P s → a.apply s = some t → P t) {s t : State} (hs : P s)
    (h : performAll moves s = some t) : P t := by
  induction moves generalizing s with
  | nil => exact Option.some.inj h ▸ hs
  | cons a rest ih =>
    obtain ⟨u, hu, hrest⟩ := Option.bind_eq_some_iff.1 h
    exact ih (fun b hb => keep b (List.mem_cons_of_mem a hb)) (keep a List.mem_cons_self s u hs hu) hrest

/-- Steps and environment writes leave a stopped core stopped (R180). -/
theorem stopped_performAll {moves : List Action} (hm : ∀ a ∈ moves, a = .step ∨ ∃ k v, a = .write k v) {s t : State}
    (hs : Stopped s) (h : performAll moves s = some t) : Stopped t := by
  refine performAll_keeps (fun a ha s t hs h => ?_) hs h
  rcases hm a ha with rfl | ⟨k, v, rfl⟩
  · exact Option.some.inj h ▸ stopped_stateAfter hs.2
  · exact Option.some.inj h ▸ stopped_environmentWrite hs k v

/-! ## The statement -/

/-- Settles O55: the reset's fields one by one, its congruence in the memories, and the induction over moves from the stop. -/
theorem resetRequestEffect : Obligations.ResetRequestEffect :=
  ⟨fun s => ⟨resetRequest s, rfl, resetRequest_reg s, rfl, rfl, rfl, rfl, rfl, rfl⟩,
    fun _ _ hpm hdm => congrArg some (resetRequest_congr hpm hdm),
    fun _ _ _ stop hm h => stopped_performAll hm (stopped_stateAfter stop) h⟩

end Sys2Proof.Machine
end

section
/-! SUPPORT. Decoder and encoder together (30_encoding.md R61 to R72): what the decoder reads from an encoded word, under any
admissible encoding. -/

namespace Sys2Proof

/-! ## Decoding an encoded word -/

/-- Reading the fields of a well-formed instruction back by its form gives the instruction (R61). -/
theorem ofFields_toFields {i : Instr} (h : i.wellFormed = true) (jf : FieldName) (op : Opcode) :
    Instr.ofFields jf i.mnemonic (i.toFields jf op) = i := by
  cases i with
  | ldi rd imm => exact Laws.OperandPacking.ldi rd imm h jf op
  | adi rd ra imm => exact Laws.OperandPacking.adi rd ra imm h jf op
  | brz ra off => exact Laws.OperandPacking.brz ra off h jf op
  | brn ra off => exact Laws.OperandPacking.brn ra off h jf op
  | jmp ra => exact Laws.OperandPacking.jmp ra h jf op
  | _ => rfl

/-- An encoded word decodes to what the form of its mnemonic reads from its fields, under every admissible encoding (R61, R72). -/
theorem decodeWith_encodeWith {e : Encoding} (he : e.Admissible) (i : Instr) :
    decodeWith e (encodeWith e i) =
      .ok (Instr.ofFields e.jmpField i.mnemonic (i.toFields e.jmpField (e.opcode i.mnemonic))) := by
  simp only [decodeWith, encodeWith, ofWord_toWord, toFields_op, mnemonicOf_opcode he]

/-- Encoding a well-formed instruction and decoding the word gives the instruction back (R72). -/
theorem decodeWith_encodeWith_of_wellFormed {e : Encoding} (he : e.Admissible) {i : Instr} (h : i.wellFormed = true) :
    decodeWith e (encodeWith e i) = .ok i := by
  rw [decodeWith_encodeWith he, ofFields_toFields h]

/-! ## The assigned opcodes -/

/-- The 19 opcodes of the default map (R67), in rising order. -/
def assignedOpcodes : List Opcode :=
  [0x00, 0x01, 0x02, 0x05, 0x06, 0x08, 0x09, 0x0A, 0x0B, 0x0C, 0x0D, 0x0E, 0x10, 0x20, 0x42, 0x4C, 0x60, 0x61, 0x70]

/-- The assigned opcodes are those of the mnemonics (R67). -/
theorem mem_assignedOpcodes {op : Opcode} : op ∈ assignedOpcodes ↔ ∃ m, opcodeOf m = op := by
  have named : ∀ op ∈ assignedOpcodes, ∃ m ∈ Mnemonic.all, opcodeOf m = op := by decide
  have listed : ∀ m ∈ Mnemonic.all, opcodeOf m ∈ assignedOpcodes := by decide
  constructor
  · intro h
    obtain ⟨m, -, hm⟩ := named op h
    exact ⟨m, hm⟩
  · rintro ⟨m, rfl⟩
    exact listed m (mem_all m)

/-- A word with an assigned opcode decodes (R68). -/
theorem decode_of_opcode {w : Word} {m : Mnemonic} (h : opcodeOf m = (Fields.ofWord w).op) :
    decode w = .ok (Instr.ofFields jmpField m (Fields.ofWord w)) := by
  have := decode_toWord h.symm
  rwa [toWord_ofWord] at this

/-! ## The word as a number -/

/-- The word packs its four fields (R71). -/
theorem toWord_toNat (f : Fields) :
    f.toWord.toNat = f.op.toNat * 512 + f.da.toNat * 64 + f.aa.toNat * 8 + f.ba.toNat := by
  have op := ofWord_op_toNat f.toWord
  have da := ofWord_da_toNat f.toWord
  have aa := ofWord_aa_toNat f.toWord
  have ba := ofWord_ba_toNat f.toWord
  rw [ofWord_toWord] at op da aa ba
  omega

/-- The offset bits of a branch, as a number: `off mod 64` (R71). -/
theorem offsetBits_toNat (off : Int) : ((offsetBits off).toNat : Int) = off % 64 := by
  rw [offsetBits, BitVec.toNat_ofInt]
  omega

/-- A branch's word carries `off mod 64` in `{da, ba}` and the register in `aa` (R71). -/
theorem branchFields_toNat (op : Opcode) (ra : Reg) (off : Int) :
    (((branchFields op ra off).da.toNat * 8 + (branchFields op ra off).ba.toNat : Nat) : Int) = off % 64 ∧
    (branchFields op ra off).aa.toNat = ra.val := by
  refine ⟨?_, rfl⟩
  rw [← offsetField_toNat, branchFields, append_halves, offsetBits_toNat]

/-! ## The statements -/

/-- Settles O4: the opcode of the word names the mnemonic, and the operands survive their fields. -/
theorem decodeEncodeEveryEncoding : Obligations.DecodeEncodeEveryEncoding :=
  fun _ he _ h => decodeWith_encodeWith_of_wellFormed he h

/-- Settles O5: a decoded instruction is its opcode's form read from the fields, which is well-formed. -/
theorem decodedInstructionIsCanonical : Obligations.DecodedInstructionIsCanonical := by
  intro e w i he h
  obtain ⟨m, hm, rfl⟩ := decodeWith_ok h
  have wf := wellFormed_ofFields e.jmpField m (Fields.ofWord w)
  refine ⟨wf, ?_, decodeWith_encodeWith_of_wellFormed he wf⟩
  rw [mnemonic_ofFields, opcode_of_mnemonicOf hm]

/-- Settles O6: the listed opcodes are those of the mnemonics. -/
theorem decodeRejectsExactlyUnassigned : Obligations.DecodeRejectsExactlyUnassigned := by
  refine ⟨fun w => ⟨fun h => ?_, fun h => ?_⟩, by decide⟩
  · exact decode_unrecognized fun m hm => h (mem_assignedOpcodes.2 ⟨m, hm⟩)
  · obtain ⟨m, hm⟩ := mem_assignedOpcodes.1 h
    exact ⟨_, decode_of_opcode hm⟩

/-- Settles O2: the packed word as a number, and the fields of a branch. -/
theorem encodePacksFields : Obligations.EncodePacksFields := by
  constructor
  · intro op da aa ba
    rw [encodeFields, toWord_toNat]
    simp only [BitVec.toNat_ofNat, Nat.reducePow]
  · rintro ra off w (rfl | rfl)
    · rw [encode, encodeWith, ofWord_toWord]
      exact branchFields_toNat _ ra off
    · rw [encode, encodeWith, ofWord_toWord]
      exact branchFields_toNat _ ra off

/-- Settles O7: a word with a mnemonic's opcode decodes to the mnemonic's form, whose operands are read off by definition. -/
theorem operandFormsDecode : Obligations.OperandFormsDecode := by
  intro da aa ba
  have form (m : Mnemonic) : decode (Fields.toWord ⟨opcodeOf m, da, aa, ba⟩) =
      .ok (Instr.ofFields jmpField m ⟨opcodeOf m, da, aa, ba⟩) := decode_toWord rfl
  exact ⟨form .mova, form .inc, form .add, form .sub, form .dec, form .and, form .or, form .xor, form .not, form .movb,
    form .shr, form .shl, form .ldi, form .adi, form .ld, form .st, form .brz, form .brn, form .jmp, rfl, rfl, rfl⟩

/-- Settles O8: the thirteen words are evaluated. -/
theorem specWordsDecode : Obligations.SpecWordsDecode := by
  unfold Obligations.SpecWordsDecode
  decide

end Sys2Proof
end

section
/-! SUPPORT. The frame of an executed instruction (10_state.md R21, R22, R27): what it leaves unchanged, what it depends on, and the
flags it leaves. -/

namespace Sys2Proof.Machine

/-! ## What an instruction leaves unchanged -/

/-- The effect of an instruction with a destination writes that register (R22). -/
theorem effectOf_dst_of_destination {i : Instr} {d : Reg} (h : i.destination = some d) (s : State) :
    ∃ v, (effectOf i s).dst = some (d, v) := by
  rw [← effectOf_dst i s] at h
  obtain ⟨⟨_, v⟩, hv, rfl⟩ := Option.map_eq_some_iff.1 h
  exact ⟨v, hv⟩

/-- The effect of an instruction without a destination writes no register (R22). -/
theorem effectOf_dst_of_no_destination {i : Instr} (h : i.destination = none) (s : State) : (effectOf i s).dst = none := by
  rw [← effectOf_dst i s] at h
  exact Option.map_eq_none_iff.1 h

/-- The register an effect names holds its result after the commit (R96). -/
theorem commit_reg_of_dst {e : Effect} {d : Reg} {v : Word} (h : e.dst = some (d, v)) (s : State) :
    (commit e s).x[d] = v := by
  rw [commit_x, h]
  exact writeReg_same _ _ _

/-- An instruction leaves every register but its destination as it was (R21, R22). -/
theorem exec_reg_of_ne_destination {i : Instr} {r : Reg} {s t : State} (h : exec i s = .next t)
    (hr : i.destination ≠ some r) : t.x[r] = s.x[r] := by
  rw [exec_next h, commit_x]
  cases hd : i.destination with
  | none => rw [effectOf_dst_of_no_destination hd]
  | some d =>
    obtain ⟨v, hv⟩ := effectOf_dst_of_destination hd s
    rw [hv]
    exact writeReg_other _ _ fun e => hr (hd.trans (congrArg some e))

/-- An instruction leaves program memory as it was (R53). -/
theorem exec_pm {i : Instr} {s t : State} (h : exec i s = .next t) : t.pm = s.pm := by rw [exec_next h, commit_pm]

/-- An instruction leaves `V` and `C` 0 (R26). -/
theorem exec_flags_v_c {i : Instr} {s t : State} (h : exec i s = .next t) : t.flags.v = false ∧ t.flags.c = false := by
  obtain ⟨v, c, -⟩ := effectOf_flags i s
  rw [exec_next h, commit_flags]
  exact ⟨v, c⟩

/-! ## What an instruction depends on -/

/-- The effect of an instruction depends on the registers, `pc` and data memory alone (R28, R29). -/
theorem effectOf_congr (i : Instr) {s u : State} (hx : s.x = u.x) (hpc : s.pc = u.pc) (hdm : s.dm = u.dm) :
    effectOf i s = effectOf i u := by
  obtain ⟨x, pc, _, _, _, dm⟩ := s
  obtain ⟨x', pc', _, _, _, dm'⟩ := u
  obtain rfl : x = x' := hx
  obtain rfl : pc = pc' := hpc
  obtain rfl : dm = dm' := hdm
  cases i <;> rfl

/-- The effect of an instruction depends on no register but its sources (R22). -/
theorem effectOf_setX {i : Instr} {s : State} {y : Vector Word 8} (h : ∀ r ∈ i.sources, y[r] = s.x[r]) :
    effectOf i { s with x := y } = effectOf i s := by
  have read : ∀ r ∈ i.sources, State.read { s with x := y } r = s.read r := h
  have target (off : Int) : branchTarget off { s with x := y } = branchTarget off s := rfl
  cases i <;>
    simp only [Instr.sources, List.forall_mem_cons] at read <;>
    simp only [effectOf, brzTarget, brnTarget, jmpTarget, read, target]

/-! ## The flags an instruction leaves -/

/-- The flags of an effect are those of the instruction's class, taken from the result written (R27). -/
theorem effectOf_flags_of_class (i : Instr) (s : State) :
    (effectOf i s).flags = flagsFor (flagClassOf i.mnemonic) (((effectOf i s).dst.map Prod.snd).getD 0) := by
  cases i <;> rfl

/-- Every instruction that computes flags writes a register (R22, R27). -/
theorem destination_of_compute {i : Instr} (h : flagClassOf i.mnemonic = .compute) : ∃ d, i.destination = some d := by
  cases i with
  | st | brz | brn | jmp => nomatch h
  | _ => exact ⟨_, rfl⟩

/-- An instruction of the class `compute` leaves `N` and `Z` of the register it wrote (R27). -/
theorem exec_flags_of_compute {i : Instr} {s t : State} (h : exec i s = .next t)
    (hc : flagClassOf i.mnemonic = .compute) : ∃ d, i.destination = some d ∧ t.flags = Flags.ofResult t.x[d] := by
  obtain ⟨d, hd⟩ := destination_of_compute hc
  obtain ⟨v, hv⟩ := effectOf_dst_of_destination hd s
  refine ⟨d, hd, ?_⟩
  rw [exec_next h, commit_reg_of_dst hv, commit_flags, effectOf_flags_of_class, hc, hv]
  rfl

/-- An instruction of the class `clear` leaves all four flags 0 (R27). -/
theorem exec_flags_of_clear {i : Instr} {s t : State} (h : exec i s = .next t)
    (hc : flagClassOf i.mnemonic = .clear) : t.flags = Flags.cleared := by
  rw [exec_next h, commit_flags, effectOf_flags_of_class, hc]
  rfl

/-! ## The statements -/

/-- Settles O28: the register write is that of the destination, and no instruction with one is `st`. -/
theorem registerWriteFrame : Obligations.RegisterWriteFrame := by
  intro i d s t hd h
  have dm : t.dm = s.dm := exec_dm_of_ne_st h fun ra rb e => by rw [e] at hd; nomatch hd
  refine ⟨fun r hr => exec_reg_of_ne_destination h fun e => ?_, fun k => by rw [dm], exec_pm h, exec_flags_v_c h⟩
  exact hr (Option.some.inj (e.symm.trans hd))

/-- Settles O29: read after write at each byte of the word `st` stores. -/
theorem storeFrame : Obligations.StoreFrame := by
  intro ra rb s t hs h
  have dm : t.dm = s.dm.writeWord (dataAddress ra s) s.x[rb] := exec_st_dm h
  rw [dm]
  refine ⟨?_, ?_, fun k hi lo => ?_, fun r => exec_reg_of_ne_destination h nofun, exec_pm h, exec_flags_v_c h⟩
  · rw [readByte_writeWord_high hs, highByte_toNat]
  · rw [readByte_writeWord_low hs, lowByte_toNat]
  · rw [readByte_writeWord hs, if_neg hi, if_neg lo]

/-- Settles O30: the three instructions have no destination, are not `st`, and are of the class `clear`. -/
theorem controlTransferFrame : Obligations.ControlTransferFrame := by
  intro i s t hi h
  obtain ⟨dst, not_st, clear⟩ :
      i.destination = none ∧ (∀ ra rb, i ≠ .st ra rb) ∧ flagClassOf i.mnemonic = .clear := by
    rcases hi with ⟨ra, off, rfl⟩ | ⟨ra, off, rfl⟩ | ⟨ra, rfl⟩ <;> exact ⟨rfl, nofun, rfl⟩
  have dm := exec_dm_of_ne_st h not_st
  exact ⟨fun r => exec_reg_of_ne_destination h (by rw [dst]; nofun), fun k => by rw [dm], exec_pm h,
    exec_flags_of_clear h clear⟩

/-- Settles O31: equal effects, committed to states that differ in the registers alone. -/
theorem readsOnlySources : Obligations.ReadsOnlySources := by
  intro i s y hy
  refine ⟨_, _, exec_eq i s, exec_eq i _, ?_⟩
  rw [effectOf_setX hy]
  refine ⟨rfl, rfl, rfl, rfl, rfl, fun d hd => ?_⟩
  obtain ⟨v, hv⟩ := effectOf_dst_of_destination hd s
  rw [commit_reg_of_dst hv, commit_reg_of_dst hv]

/-- Settles O32: the two lists are the two flag classes. -/
theorem flagClasses : Obligations.FlagClasses := by
  have compute : ∀ m ∈ [Mnemonic.add, .sub, .dec, .and, .or, .xor, .not, .adi], flagClassOf m = .compute := by decide
  have clear : ∀ m ∈ [Mnemonic.mova, .inc, .movb, .shr, .shl, .ldi, .ld, .st, .brz, .brn, .jmp],
      flagClassOf m = .clear := by decide
  refine fun i s t h => ⟨fun hm => ?_, fun hm => exec_flags_of_clear h (clear _ hm)⟩
  obtain ⟨d, hd, hf⟩ := exec_flags_of_compute h (compute _ hm)
  exact ⟨d, hd, by rw [hf, ofResult_eq]⟩

end Sys2Proof.Machine
end

section
/-! SUPPORT. Data memory along a sequence of moves (20_memory.md R50): it is the memory of the start with the moves' writes done in
order. -/

namespace Sys2Proof.Machine

/-! ## A list of byte writes -/

/-- The memory after the byte writes `ws`, in order. -/
def Memory.writeAll (m : Memory) (ws : List Host.Cell) : Memory := ws.foldl (fun m c => m.writeByte c.1 c.2) m

theorem writeAll_append (m : Memory) (ws vs : List Host.Cell) : m.writeAll (ws ++ vs) = (m.writeAll ws).writeAll vs :=
  List.foldl_append

/-- After byte writes, each byte is the last one written (R50). -/
theorem readByte_writeAll {m : Memory} (hm : m.wf) {ws : List Host.Cell} (hws : ∀ c ∈ ws, c.1 < Config.dataBytes)
    (k : Nat) : (m.writeAll ws).readByte k = lastWritten ws k (m.readByte k) := by
  induction ws generalizing m with
  | nil => rfl
  | cons c ws ih =>
    obtain ⟨hc, hrest⟩ := List.forall_mem_cons.1 hws
    have head : (m.writeByte c.1 c.2).readByte k = if c.1 = k then c.2 else m.readByte k := readByte_writeByte hm _ _ _
    exact (ih (writeByte_wf hm hc c.2) hrest).trans (by rw [head]; rfl)

/-! ## The writes of a move -/

/-- A step does to data memory the writes it lists, and these are none or the two of a stored word (R45, R141). -/
theorem stateAfter_dm_cases (s : State) :
    ((stateAfter s).dm = s.dm ∧ stepWrites s = []) ∨
    ∃ a v, (stateAfter s).dm = s.dm.writeWord a v ∧
      stepWrites s = [(highByteAddr a, highByte v), (lowByteAddr a, lowByte v)] := by
  rcases step_result_cases s with ⟨hf, -, ha, -⟩ | ⟨w, hf, -, hd, -, ha, -⟩ | ⟨w, i, hf, hd, -, ha, -⟩
  · exact .inl ⟨by rw [ha, endOfProgram_dm], by simp only [stepWrites, hf]⟩
  · exact .inl ⟨by rw [ha, faultedState_dm], by simp only [stepWrites, hf, hd]⟩
  · rw [ha]
    cases i with
    | st ra rb => exact .inr ⟨s.read ra, s.read rb, rfl, by simp only [stepWrites, hf, hd]⟩
    | _ => exact .inl ⟨rfl, by simp only [stepWrites, hf, hd]⟩

/-- A move leaves data memory with its writes done in order (R50, R105). -/
theorem apply_dm {a : Action} {s t : State} (h : a.apply s = some t) : t.dm = s.dm.writeAll (a.writes s) := by
  cases a with
  | step =>
    obtain rfl : stateAfter s = t := Option.some.inj h
    rw [Action.writes]
    rcases stateAfter_dm_cases s with ⟨hdm, hw⟩ | ⟨a, v, hdm, hw⟩
    · rw [hdm, hw]
      rfl
    · rw [hdm, hw]
      rfl
  | reset => exact Option.some.inj h ▸ rfl
  | write k v => exact Option.some.inj h ▸ rfl
  | load program =>
    obtain ⟨-, rfl⟩ := loadProgram_eq_some.1 h
    rfl

/-- Every write of a move is inside the byte view (R40). -/
theorem writes_lt (a : Action) (s : State) : ∀ c ∈ a.writes s, c.1 < Config.dataBytes := by
  cases a with
  | step =>
    rw [Action.writes]
    rcases stateAfter_dm_cases s with ⟨-, hw⟩ | ⟨a, v, -, hw⟩
    · rw [hw]
      exact nofun
    · rw [hw]
      exact List.forall_mem_cons.2 ⟨highByteAddr_lt a, List.forall_mem_singleton.2 (lowByteAddr_lt a)⟩
  | reset | load => exact nofun
  | write k v => exact List.forall_mem_singleton.2 k.isLt

/-- A sequence of moves leaves data memory with all its writes done in order (R50). -/
theorem performAll_dm {moves : List Action} {s t : State} (h : performAll moves s = some t) :
    t.dm = s.dm.writeAll (allWrites moves s) := by
  induction moves generalizing s with
  | nil => exact Option.some.inj h ▸ rfl
  | cons a rest ih =>
    obtain ⟨u, hu, hrest⟩ := Option.bind_eq_some_iff.1 h
    rw [ih hrest, apply_dm hu, allWrites, hu, writeAll_append]

/-- Every write of a sequence of moves is inside the byte view (R40). -/
theorem allWrites_lt (moves : List Action) (s : State) : ∀ c ∈ allWrites moves s, c.1 < Config.dataBytes := by
  induction moves generalizing s with
  | nil => exact nofun
  | cons a rest ih =>
    refine List.forall_mem_append.2 ⟨writes_lt a s, ?_⟩
    cases a.apply s with
    | none => exact nofun
    | some u => exact ih u

/-! ## Canonical memories -/

/-- The first cell of a canonical memory reads differently in a memory that lists only higher addresses. -/
theorem readByte_ne_of_head {c : Host.Cell} {m n : Memory} (hm : Memory.wf (c :: m)) (hn : ∀ d ∈ n, c.1 < d.1) :
    Memory.readByte (c :: m) c.1 ≠ n.readByte c.1 := by
  obtain ⟨-, -, -, hc⟩ := wf_cons hm
  rw [readByte_below hn, Memory.readByte, if_pos rfl]
  exact hc

/-- Where two canonical memories read alike, the second lists no address below the first's lowest. -/
theorem head_le_of_readByte_eq {c d : Host.Cell} {m n : Memory} (hm : Memory.wf (c :: m)) (hn : Memory.wf (d :: n))
    (h : ∀ k, Memory.readByte (c :: m) k = Memory.readByte (d :: n) k) : d.1 ≤ c.1 := by
  by_contra lt
  obtain ⟨-, above, -, -⟩ := wf_cons hn
  exact readByte_ne_of_head hm (List.forall_mem_cons.2 ⟨by omega, fun e he => by have := above e he; omega⟩) (h c.1)

/-- Two canonical memories that read alike at every byte are the same list. -/
theorem eq_of_readByte_eq {m n : Memory} (hm : m.wf) (hn : n.wf) (h : ∀ k, m.readByte k = n.readByte k) : m = n := by
  induction m generalizing n with
  | nil =>
    cases n with
    | nil => rfl
    | cons d n => exact absurd (h d.1).symm (readByte_ne_of_head hn nofun)
  | cons c m ih =>
    cases n with
    | nil => exact absurd (h c.1) (readByte_ne_of_head hm nofun)
    | cons d n =>
      have addr : c.1 = d.1 :=
        le_antisymm (head_le_of_readByte_eq hn hm fun k => (h k).symm) (head_le_of_readByte_eq hm hn h)
      obtain ⟨hm', hmlt, -, -⟩ := wf_cons hm
      obtain ⟨hn', hnlt, -, -⟩ := wf_cons hn
      have value : c.2 = d.2 := by simpa [Memory.readByte, addr] using h c.1
      have tail : m = n := by
        refine ih hm' hn' fun k => ?_
        by_cases hk : c.1 = k
        · rw [← hk, readByte_below hmlt, readByte_below (addr ▸ hnlt)]
        · have hk' : d.1 ≠ k := addr ▸ hk
          simpa only [Memory.readByte, if_neg hk, if_neg hk'] using h k
      rw [Prod.ext addr value, tail]

/-! ## The statements -/

/-- Settles O53: data memory at the end is that of the start with all writes done in order. -/
theorem lastWriteIsRead : Obligations.LastWriteIsRead := by
  intro moves s t hs h k
  rw [performAll_dm h, readByte_writeAll hs (allWrites_lt moves s)]

/-- Settles O51: by induction on the two lists, whose first cells have equal addresses and bytes. -/
theorem canonicalMemoryIsUnique : Obligations.CanonicalMemoryIsUnique := fun _ _ hm hn h => eq_of_readByte_eq hm hn h

/-- Settles O49: the load reads the memory with the store's word written, at an address register the store kept. -/
theorem storeThenLoad : Obligations.StoreThenLoad := by
  intro ra rb rd rc s t u hs hst hld
  have kept : t.x[rc] = s.x[rc] := exec_reg_of_ne_destination hst nofun
  rw [exec_ld_reg hld, exec_st_dm hst, kept, readWord_writeWord hs]

end Sys2Proof.Machine
end

section
/-! SUPPORT. What every move keeps (00_scope.md R6, 40_step_cycle.md R105): the invariant, and program memory but for a load. -/

namespace Sys2Proof.Machine

/-! ## The invariant -/

/-- A step that answers a next state leaves that state (R90). -/
theorem stateAfter_of_step_next {s t : State} (h : step s = .next t) : stateAfter s = t := by simp only [stateAfter, h]

/-- A stop that changes nothing but `run_state` keeps the invariant (R91, R94). -/
theorem inv_setRunState {s : State} (h : Inv s) (rs : RunState) : Inv { s with runState := rs } :=
  ⟨h.program, h.data, h.noV, h.noC, h.notNZ⟩

/-- An executed instruction keeps the invariant (R26, R27). -/
theorem inv_commit {s : State} (h : Inv s) (i : Instr) : Inv (commit (effectOf i s) s) := by
  obtain ⟨noV, noC, notNZ⟩ := effectOf_flags i s
  refine ⟨h.program, ?_, noV, noC, notNZ⟩
  rcases effectOf_store i s with hst | ⟨ra, rb, -, hst⟩
  · rw [commit_dm, hst]
    exact h.data
  · rw [commit_dm, hst]
    exact writeWord_wf h.data _ _

/-- A reset leaves the invariant where both memories meet their part of it (R35, R180). -/
theorem inv_resetRequest {s : State} (hpm : s.progLen ≤ Config.programWordsMax) (hdm : s.dm.wf) : Inv (resetRequest s) :=
  ⟨hpm, hdm, rfl, rfl, nofun⟩

/-- A step request, a faulting one included, keeps the invariant (R90, R94). -/
theorem inv_stateAfter {s : State} (h : Inv s) : Inv (stateAfter s) := by
  rcases step_result_cases s with ⟨-, -, ha, -⟩ | ⟨w, -, -, -, -, ha, -⟩ | ⟨w, i, -, -, -, ha, -⟩
  · rw [ha]
    exact inv_setRunState h .halted
  · rw [ha]
    exact inv_setRunState h .halted
  · rw [ha]
    exact inv_commit h i

/-- Every move keeps the invariant (R105). -/
theorem inv_apply {a : Action} {s t : State} (hs : Inv s) (h : a.apply s = some t) : Inv t := by
  cases a with
  | step => exact Option.some.inj h ▸ inv_stateAfter hs
  | reset => exact Option.some.inj h ▸ inv_resetRequest hs.program hs.data
  | write k v =>
    obtain rfl : environmentWrite k v s = t := Option.some.inj h
    exact ⟨hs.program, writeByte_wf hs.data k.isLt v, hs.noV, hs.noC, hs.notNZ⟩
  | load program =>
    obtain ⟨hlen, rfl⟩ := loadProgram_eq_some.1 h
    exact inv_resetRequest hlen hs.data

/-! ## Program memory -/

/-- A step request leaves program memory as it was (R53). -/
theorem stateAfter_pm (s : State) : (stateAfter s).pm = s.pm := by
  rcases step_result_cases s with ⟨-, -, ha, -⟩ | ⟨w, -, -, -, -, ha, -⟩ | ⟨w, i, -, -, -, ha, -⟩ <;> rw [ha]
  · rw [endOfProgram_pm]
  · rw [faultedState_pm]
  · rw [commit_pm]

/-- Every move but a load leaves program memory as it was (R53). -/
theorem apply_pm {a : Action} {s t : State} (h : a.apply s = some t) (ha : ∀ p, a ≠ .load p) : t.pm = s.pm := by
  cases a with
  | step => exact Option.some.inj h ▸ stateAfter_pm s
  | reset => exact Option.some.inj h ▸ rfl
  | write k v => exact Option.some.inj h ▸ rfl
  | load program => exact absurd rfl (ha program)

/-! ## The statements -/

/-- Settles O57: the state a step answers is the state after the step request. -/
theorem stepKeepsInv : Obligations.StepKeepsInv := fun _ _ hs h => stateAfter_of_step_next h ▸ inv_stateAfter hs

/-- Settles O58: by induction over the moves, each of which keeps the invariant. -/
theorem movesKeepInv : Obligations.MovesKeepInv := fun _ _ _ hs h => performAll_keeps (fun _ _ _ _ => inv_apply) hs h

/-- Settles O56: both are the state a reset leaves, of two memories in their bounds. -/
theorem invAtReset : Obligations.InvAtReset := by
  refine ⟨?_, fun program data hlen hdata => inv_resetRequest hlen hdata⟩
  exact inv_resetRequest (s := State.reset) (Nat.zero_le _) ⟨List.Pairwise.nil, nofun⟩

/-- Settles O54: no commit writes program memory; a load is a reset with the new program. -/
theorem programMemoryImmutable : Obligations.ProgramMemoryImmutable := by
  refine ⟨fun _ _ _ => exec_pm, fun _ _ _ => apply_pm, fun p s t h => ?_⟩
  obtain ⟨-, rfl⟩ := loadProgram_eq_some.1 h
  exact ⟨rfl, rfl, rfl⟩

end Sys2Proof.Machine
end

section
/-! SUPPORT. The result of each instruction (41_alu_register.md to 44_control_transfer.md): its next state in full, with the result
as a number. -/

namespace Sys2Proof.Machine

/-! ## The next state in full -/

/-- An instruction of the class `clear` that writes `r` to `x[d]`: all four flags 0, and `pc + 1` (R27, R97). -/
theorem execResult_clear (d : Reg) (r : Word) (s : State) :
    execResult .clear d r s = .next { s with
      x := s.x.set d r, pc := s.pc + 1, runState := .running
      flags := { v := false, c := false, n := false, z := false } } := rfl

/-- An instruction of the class `compute` that writes `r` to `x[d]`: `N` and `Z` from `r` as a number, and `pc + 1` (R27, R97). -/
theorem execResult_compute (d : Reg) (r : Word) (s : State) :
    execResult .compute d r s = .next { s with
      x := s.x.set d r, pc := s.pc + 1, runState := .running
      flags := { v := false, c := false, n := decide (32768 ≤ r.toNat), z := decide (r.toNat = 0) } } := by
  rw [← ofResult_eq]
  rfl

/-- A branch taken where `p` holds: `pc` is the target there and `pc + 1` elsewhere, halted where it is the branch itself (R97 to
R99). -/
theorem commit_branch (p : Prop) [Decidable p] (target : Word) (s : State) :
    commit { flags := Flags.cleared, target := if p then some target else none } s = { s with
      pc := if p then target else s.pc + 1
      runState := if p ∧ target = s.pc then .halted else .running
      flags := { v := false, c := false, n := false, z := false } } := by
  by_cases hp : p
  · simp only [commit, hp, if_true, nextPc_some, nextRunState_some, true_and, Flags.cleared]
  · simp only [commit, hp, if_false, nextPc_none, nextRunState_none, false_and, Flags.cleared]

/-- `brz`'s condition as a number (R150). -/
theorem brzTarget_eq (ra : Reg) (off : Int) (s : State) :
    brzTarget ra off s = if s.x[ra].toNat = 0 then some (branchTarget off s) else none := by
  have zero : s.read ra = 0 ↔ s.x[ra].toNat = 0 := BitVec.toNat_inj.symm
  simp only [brzTarget, zero]

/-- `brn`'s condition as a number (R151). -/
theorem brnTarget_eq (ra : Reg) (off : Int) (s : State) :
    brnTarget ra off s = if 32768 ≤ s.x[ra].toNat then some (branchTarget off s) else none := by
  have negative : (s.read ra).msb = decide (32768 ≤ s.x[ra].toNat) := BitVec.msb_eq_decide _
  simp only [brnTarget, negative, decide_eq_true_eq]

/-! ## The results as numbers -/

/-- Subtraction modulo 65536, by cases on the borrow (R110, R114). -/
theorem sub_toNat (a b : Word) :
    (a - b).toNat = if b.toNat ≤ a.toNat then a.toNat - b.toNat else a.toNat + 65536 - b.toNat := by
  rw [BitVec.toNat_sub]
  split <;> omega

/-! ## The statements: register instructions -/

/-- Settles O9: one register written, flags cleared. -/
theorem movaResult : Obligations.MovaResult := fun rd ra s => execResult_clear rd s.x[ra] s

/-- Settles O10: the sum is the machine's own addition modulo 65536. -/
theorem incResult : Obligations.IncResult :=
  fun rd ra s => ⟨s.x[ra] + 1, BitVec.toNat_add _ _, execResult_clear rd _ s⟩

/-- Settles O11: the sum is the machine's own addition modulo 65536. -/
theorem addResult : Obligations.AddResult :=
  fun rd ra rb s => ⟨s.x[ra] + s.x[rb], BitVec.toNat_add _ _, execResult_compute rd _ s⟩

/-- Settles O12: the difference by cases on the borrow. -/
theorem subResult : Obligations.SubResult :=
  fun rd ra rb s => ⟨s.x[ra] - s.x[rb], sub_toNat _ _, execResult_compute rd _ s⟩

/-- Settles O13: the difference with 1 borrows exactly from 0. -/
theorem decResult : Obligations.DecResult := by
  refine fun rd ra s => ⟨s.x[ra] - 1, ?_, execResult_compute rd _ s⟩
  have one : (1 : Word).toNat = 1 := rfl
  rw [sub_toNat, one]
  split <;> split <;> omega

/-- Settles O14: bit by bit. -/
theorem andResult : Obligations.AndResult :=
  fun rd ra rb s => ⟨s.x[ra] &&& s.x[rb], fun _ _ => BitVec.getLsbD_and, execResult_compute rd _ s⟩

/-- Settles O15: bit by bit. -/
theorem orResult : Obligations.OrResult :=
  fun rd ra rb s => ⟨s.x[ra] ||| s.x[rb], fun _ _ => BitVec.getLsbD_or, execResult_compute rd _ s⟩

/-- Settles O16: bit by bit; a word cancels itself. -/
theorem xorResult : Obligations.XorResult := by
  refine fun rd ra rb s => ⟨s.x[ra] ^^^ s.x[rb], fun _ _ => BitVec.getLsbD_xor, ?_, execResult_compute rd _ s⟩
  rintro rfl
  exact BitVec.xor_self

/-- Settles O17: the complement is the distance to 65535. -/
theorem notResult : Obligations.NotResult :=
  fun rd ra s => ⟨~~~ s.x[ra], BitVec.toNat_not, execResult_compute rd _ s⟩

/-- Settles O18: one register written, flags cleared. -/
theorem movbResult : Obligations.MovbResult := fun rd rb s => execResult_clear rd s.x[rb] s

/-- Settles O19: a shift right by one halves. -/
theorem shrResult : Obligations.ShrResult :=
  fun rd rb s => ⟨s.x[rb] >>> 1, Nat.shiftRight_one _, execResult_clear rd _ s⟩

/-- Settles O20: a shift left by one doubles, modulo 65536. -/
theorem shlResult : Obligations.ShlResult := by
  refine fun rd rb s => ⟨s.x[rb] <<< 1, ?_, execResult_clear rd _ s⟩
  rw [BitVec.toNat_shiftLeft, Nat.shiftLeft_eq, Nat.pow_one, Nat.mul_comm]

/-! ## The statements: immediates, load and store -/

/-- Settles O21: the immediate is its 3-bit field. -/
theorem ldiResult : Obligations.LdiResult :=
  fun rd imm s => ⟨immediate imm, immediate_toNat imm, execResult_clear rd _ s⟩

/-- Settles O22: the sum with the 3-bit field. -/
theorem adiResult : Obligations.AdiResult := by
  refine fun rd ra imm s => ⟨s.x[ra] + immediate imm, ?_, execResult_compute rd _ s⟩
  rw [BitVec.toNat_add, immediate_toNat]

/-- Settles O23: the word read is its two bytes. -/
theorem ldResult : Obligations.LdResult :=
  fun rd ra s => ⟨s.dm.readWord s.x[ra], readWord_toNat _ _, execResult_clear rd _ s⟩

/-- Settles O24: the word write is the two byte writes. -/
theorem stResult : Obligations.StResult :=
  fun _ _ _ => ⟨highByte _, lowByte _, highByte_toNat _, lowByte_toNat _, rfl⟩

/-! ## The statements: control transfer -/

/-- Settles O25: a branch taken on zero, its own target exactly where the offset is 0. -/
theorem brzResult : Obligations.BrzResult := by
  intro ra off s lo hi
  have inRange : offsetInRange off = true := decide_eq_true ⟨lo, hi⟩
  refine ⟨branchTarget off s, branchTarget_toNat inRange s, ?_⟩
  simp only [exec, execBrz, brzTarget_eq, flagClassOf, flagsFor, commit_branch, branchTarget_eq_pc inRange]

/-- Settles O26: a branch taken on bit 15, its own target exactly where the offset is 0. -/
theorem brnResult : Obligations.BrnResult := by
  intro ra off s lo hi
  have inRange : offsetInRange off = true := decide_eq_true ⟨lo, hi⟩
  refine ⟨branchTarget off s, branchTarget_toNat inRange s, ?_⟩
  simp only [exec, execBrn, brnTarget_eq, flagClassOf, flagsFor, commit_branch, branchTarget_eq_pc inRange]

/-- Settles O27: a branch always taken. -/
theorem jmpResult : Obligations.JmpResult := by
  intro ra s
  have := commit_branch True s.x[ra] s
  simp only [if_true, true_and] at this
  exact congrArg Host.Outcome.next this

end Sys2Proof.Machine
end

section
/-! SUPPORT. The step (40_step_cycle.md): what it runs, what it depends on, how it resolves `pc`, and that its result and the memory
ports agree with it. -/

namespace Sys2Proof

/-- The machine's decoder reads a well-formed instruction back from its word (R72). -/
theorem decode_encode {i : Instr} (h : i.wellFormed = true) : decode (encode i) = .ok i :=
  decodeWith_encodeWith_of_wellFormed encoding_admissible h

/-- A word is rejected exactly where its opcode is that of no mnemonic (R68). -/
theorem decode_eq_error {w : Word} {op : Opcode} :
    decode w = .error (.unrecognizedOpcode op) ↔
      (∀ m : Mnemonic, opcodeOf m ≠ (Fields.ofWord w).op) ∧ op = (Fields.ofWord w).op := by
  rw [decode, decodeWith_error, mnemonicOf_eq_none, DecodeReject.unrecognizedOpcode.injEq]
  rfl

end Sys2Proof

namespace Sys2Proof.Machine

/-! ## The step that runs an instruction -/

/-- A step with no word to fetch halts at the end of the program (R91). -/
theorem step_of_fetch_none {s : State} (hf : s.fetch = none) : step s = .next (endOfProgram s) := by
  simp only [step, hf]

/-- A step whose word decodes runs the instruction (R90, R93). -/
theorem step_of_decode_ok {s : State} {w : Word} {i : Instr} (hf : s.fetch = some w) (hd : decode w = .ok i) :
    step s = exec i s := by
  simp only [step, hf, hd]

/-- The result of a step whose word decodes is that of the instruction (R101). -/
theorem stepResult_of_decode_ok {s : State} {w : Word} {i : Instr} (hf : s.fetch = some w) (hd : decode w = .ok i) :
    stepResult s = executedResult w i s := by
  simp only [stepResult, hf, hd]

/-- A fetched word is below `prog_len` (R91, R92). -/
theorem pc_lt_of_fetch {s : State} {w : Word} (hf : s.fetch = some w) : s.pc.toNat < s.progLen :=
  (List.getElem?_eq_some_iff.1 hf).1

/-- A step is never refused (R162). -/
theorem step_ne_refused (s : State) (r : Refusal) : step s ≠ .refused r := by
  rcases step_cases s with ⟨-, hs⟩ | ⟨w, -, -, -, hs⟩ | ⟨w, i, -, -, hs⟩
  · rw [hs]
    nofun
  · rw [hs]
    nofun
  · rw [hs, exec_eq]
    nofun

/-- When a step faults, and with what (R94, R160). -/
theorem step_eq_fault {s : State} {f : Fault} :
    step s = .fault f ↔ ∃ w op, s.fetch = some w ∧ decode w = .error (.unrecognizedOpcode op) ∧ f = .illegalOpcode op := by
  constructor
  · intro h
    rcases step_cases s with ⟨-, hs⟩ | ⟨w, hf, -, hd, hs⟩ | ⟨w, i, -, -, hs⟩
    · rw [hs] at h
      nomatch h
    · rw [hs] at h
      exact ⟨w, _, hf, hd, (Host.Outcome.fault.inj h).symm⟩
    · rw [hs, exec_eq] at h
      nomatch h
  · rintro ⟨w, op, hf, hd, rfl⟩
    exact step_of_decode_error hf hd

/-! ## What a step depends on -/

/-- A step that ran an instruction does not depend on the flags or `run_state` before it (R28, R29). -/
theorem step_setFlags {s t : State} (f : Flags) (rs : RunState) (hdec : (stepResult s).decoded ≠ none)
    (h : step s = .next t) : step { s with flags := f, runState := rs } = .next t := by
  rcases step_result_cases s with ⟨-, -, -, hr⟩ | ⟨w, -, -, -, -, -, hr⟩ | ⟨w, i, hf, hd, hs, -, -⟩
  · exact absurd (congrArg StepResult.decoded hr) hdec
  · exact absurd (congrArg StepResult.decoded hr) hdec
  · have same : effectOf i { s with flags := f, runState := rs } = effectOf i s := effectOf_congr i rfl rfl rfl
    rw [step_of_decode_ok (s := { s with flags := f, runState := rs }) hf hd, exec_eq, same, ← h, hs]
    rfl

/-- An instruction does not depend on program memory (R32, R92). -/
theorem exec_setPm (i : Instr) (s : State) (p : List Word) :
    exec i { s with pm := p } = .next { commit (effectOf i s) s with pm := p } := by
  have same : effectOf i { s with pm := p } = effectOf i s := effectOf_congr i rfl rfl rfl
  rw [exec_eq, same]
  rfl

/-! ## The branch taken -/

/-- An offset's target given as a number (R152). -/
theorem branchTarget_eq_iff {off : Int} (h : offsetInRange off = true) (s : State) (a : Word) :
    branchTarget off s = a ↔ (a.toNat : Int) = (s.pc.toNat + off) % 65536 := by
  rw [← branchTarget_toNat h s, Int.natCast_inj, BitVec.toNat_inj, eq_comm]

/-! ## The meaning of an encoded word -/

/-- An immediate acts as the field it is cut to (R64; log entry 18). -/
theorem immediate_field (imm : Nat) : immediate (BitVec.ofNat 3 imm).toNat = immediate imm := by
  rw [immediate, BitVec.ofNat_toNat, BitVec.setWidth_eq, immediate]

/-- A branch offset acts as the field it is cut to (R63; log entry 18). -/
theorem offsetWord_field (off : Int) :
    offsetWord (branchOffset ((offsetBits off).extractLsb' 3 3) ((offsetBits off).extractLsb' 0 3)) = offsetWord off := by
  rw [branchOffset, append_halves, offsetWord, offsetBits, BitVec.ofInt_toInt, offsetWord]

/-- The instruction read back from the fields of a term has the term's effect, its operands in range or not (log entry 18). -/
theorem effectOf_ofFields (i : Instr) (jf : FieldName) (op : Opcode) (s : State) :
    effectOf (Instr.ofFields jf i.mnemonic (i.toFields jf op)) s = effectOf i s := by
  cases i with
  | ldi rd imm =>
    simp only [Instr.mnemonic, Instr.toFields, Instr.ofFields, effectOf, regOfField_fieldOfReg, immediate_field]
  | adi rd ra imm =>
    simp only [Instr.mnemonic, Instr.toFields, Instr.ofFields, effectOf, regOfField_fieldOfReg, immediate_field]
  | brz ra off =>
    simp only [Instr.mnemonic, Instr.toFields, Instr.ofFields, branchFields, effectOf, brzTarget, branchTarget,
      regOfField_fieldOfReg, offsetWord_field]
  | brn ra off =>
    simp only [Instr.mnemonic, Instr.toFields, Instr.ofFields, branchFields, effectOf, brnTarget, branchTarget,
      regOfField_fieldOfReg, offsetWord_field]
  | jmp ra => rw [ofFields_toFields rfl]
  | _ => rfl

/-! ## The step result -/

/-- The four outcomes of a step (R101): what the step answers, the `run_state` after it, and its result. -/
theorem step_outcomes (s : State) :
    (step s = .next (stateAfter s) ∧ (stateAfter s).runState = .halted ∧
      stepResult s = { continues := false, outcome := .endOfProgram, decoded := none, faultOp := none }) ∨
    (∃ op, step s = .fault (.illegalOpcode op) ∧ (stateAfter s).runState = .halted ∧
      stepResult s = { continues := false, outcome := .illegalOpcode, decoded := none, faultOp := some op }) ∨
    (∃ d, step s = .next (stateAfter s) ∧ (stateAfter s).runState = .halted ∧
      stepResult s = { continues := false, outcome := .selfBranchHalt, decoded := some d, faultOp := none }) ∨
    (∃ d, step s = .next (stateAfter s) ∧ (stateAfter s).runState = .running ∧
      stepResult s = { continues := true, outcome := .executed, decoded := some d, faultOp := none }) := by
  rcases step_result_cases s with ⟨-, hs, ha, hr⟩ | ⟨w, -, -, -, hs, ha, hr⟩ | ⟨w, i, -, -, hs, ha, hr⟩
  · exact .inl ⟨ha ▸ hs, ha ▸ rfl, hr⟩
  · exact .inr (.inl ⟨_, hs, ha ▸ rfl, hr⟩)
  · have run : (stateAfter s).runState = nextRunState s.pc (takenTarget i s) := by
      rw [ha, commit_runState, effectOf_target]
    by_cases self : takenTarget i s = some s.pc
    · rw [executedResult_of_self w self] at hr
      rw [self, nextRunState_some, if_pos rfl] at run
      exact .inr (.inr (.inl ⟨_, ha ▸ hs, run, hr⟩))
    · rw [executedResult_of_ne w self] at hr
      rw [(nextRunState_eq_running _ _).2 (decide_eq_false self)] at run
      exact .inr (.inr (.inr ⟨_, ha ▸ hs, run, hr⟩))

/-! ## A stopping step repeated -/

/-- An instruction that takes its own address as target clears the flags and halts, and does nothing else (R99, R154). -/
theorem commit_of_self {i : Instr} {s : State} (h : takenTarget i s = some s.pc) :
    commit (effectOf i s) s = { s with flags := Flags.cleared, runState := .halted } := by
  obtain ⟨dst, store, flags⟩ := effectOf_of_taken h
  simp only [commit, dst, store, flags, effectOf_target, h, nextPc_some, nextRunState_some, if_true]

/-- A stopping step, repeated, leaves the identical state (R102). -/
theorem stateAfter_stateAfter_of_stop {s : State} (h : (stepResult s).continues = false) :
    stateAfter (stateAfter s) = stateAfter s := by
  rcases step_result_cases s with ⟨hf, -, ha, -⟩ | ⟨w, hf, -, hd, -, ha, -⟩ | ⟨w, i, hf, hd, hs, ha, hr⟩
  · have again : step (endOfProgram s) = .next (endOfProgram s) := step_of_fetch_none (s := endOfProgram s) hf
    rw [ha, stateAfter_of_step_next again]
  · have again : step (faultedState s) = .fault (.illegalOpcode (Fields.ofWord w).op) :=
      step_of_decode_error (s := faultedState s) hf hd
    rw [ha, stateAfter_of_step_fault again]
    rfl
  · have decoded : (stepResult s).decoded ≠ none := by
      rw [hr]
      nofun
    rw [commit_of_self (self_of_executedResult_stop (hr ▸ h))] at hs ha
    rw [ha, stateAfter_of_step_next (step_setFlags Flags.cleared .halted decoded hs)]

/-! ## Ports -/

/-- The program port presents `pc` and receives the word there, exactly where `pc` is inside the program (R43, R55). -/
theorem portActivity_fetched (s : State) :
    (portActivity s).fetched = if s.pc.toNat < s.progLen then s.fetch.map (Prod.mk s.pc) else none := by
  rcases portActivity_cases s with ⟨hf, hp⟩ | ⟨w, op, hf, -, hp⟩ | ⟨w, i, hf, -, hp⟩
  · rw [hf, hp, Option.map_none, ite_self]
  · rw [hf, hp, if_pos (pc_lt_of_fetch hf), Option.map_some]
  · rw [hf, hp, if_pos (pc_lt_of_fetch hf), Option.map_some]

/-! ## The statements: the step -/

/-- Settles O34: the step and its result both follow the decoded instruction. -/
theorem stepRunsDecoded : Obligations.StepRunsDecoded := by
  intro s w i _ hf hd
  refine ⟨step_of_decode_ok hf hd, ?_⟩
  rw [stepResult_of_decode_ok hf hd]
  rfl

/-- Settles O35: the word at `pc`, found there or placed there, decodes to the instruction. -/
theorem stepRunsEncoded : Obligations.StepRunsEncoded := by
  refine fun s i wf => ⟨fun hf => step_of_decode_ok hf (decode_encode wf), step_of_decode_ok ?_ (decode_encode wf)⟩
  rw [fetch_withFetchWord, Nat.mod_eq_of_lt (encode i).isLt, BitVec.ofNat_toNat, BitVec.setWidth_eq]

/-- Settles O36: there is no word to fetch. -/
theorem stepAtProgramEnd : Obligations.StepAtProgramEnd := by
  intro s h
  have hf := (fetch_eq_none_iff s).2 h
  exact ⟨step_of_fetch_none hf, by simp only [stepResult, hf]⟩

/-- Settles O38: a step faults exactly on a rejected word, and the decoder rejects exactly the opcodes of no mnemonic. -/
theorem nothingElseFaults : Obligations.NothingElseFaults := by
  refine fun s f => ⟨step_eq_fault.trans ⟨?_, ?_⟩, step_ne_refused s⟩
  · rintro ⟨w, op, hf, hd, rfl⟩
    obtain ⟨unassigned, rfl⟩ := decode_eq_error.1 hd
    exact ⟨w, pc_lt_of_fetch hf, hf, unassigned, rfl⟩
  · rintro ⟨w, -, hf, unassigned, rfl⟩
    exact ⟨w, _, hf, decode_unrecognized unassigned, rfl⟩

/-- Settles O33: the fetch and the effect see neither the flags nor `run_state`. -/
theorem flagsAndRunStateNeverRead : Obligations.FlagsAndRunStateNeverRead :=
  fun _ _ f rs hdec h => step_setFlags f rs hdec h

/-- Settles O44: the fetch sees the word at `pc` alone, and the effect no program word. -/
theorem fetchReadsOnlyPc : Obligations.FetchReadsOnlyPc := by
  intro s p hp
  have fetch : State.fetch { s with pm := p } = s.fetch := hp
  rcases step_cases s with ⟨hf, hs⟩ | ⟨w, hf, -, hd, hs⟩ | ⟨w, i, hf, hd, hs⟩
  · rw [hs, step_of_fetch_none (fetch.trans hf)]
    rfl
  · rw [hs, step_of_decode_error (fetch.trans hf) hd]
  · rw [hs, step_of_decode_ok (fetch.trans hf) hd, exec_setPm, exec_eq]

/-- Settles O40: the commit's `pc` and `run_state`, by cases on the target taken. -/
theorem pcResolution : Obligations.PcResolution := by
  refine fun i s => ⟨_, exec_eq i s, fun h => ?_, fun a h ne => ?_, fun h => ?_⟩
  · rw [commit_pc, commit_runState, effectOf_target, h]
    exact ⟨BitVec.toNat_add _ _, rfl⟩
  · rw [commit_pc, commit_runState, effectOf_target, h, nextPc_some, nextRunState_some, if_neg ne]
    exact ⟨rfl, rfl⟩
  · rw [commit_pc, commit_runState, effectOf_target, h, nextPc_some, nextRunState_some, if_pos rfl]
    exact ⟨rfl, rfl⟩

/-- Settles O41: only the three control transfers take a target, each by its own condition. -/
theorem takenExactly : Obligations.TakenExactly := by
  intro i s a wf
  constructor
  · intro h
    rcases branch_or_jmp_of_takenTarget h with ⟨ra, off, rfl⟩ | ⟨ra, off, rfl⟩ | jump
    · obtain ⟨zero, target⟩ := brzTarget_eq_some.1 h
      exact .inl ⟨ra, off, rfl, zero, (branchTarget_eq_iff wf s a).1 target⟩
    · obtain ⟨negative, target⟩ := brnTarget_eq_some.1 h
      exact .inr (.inl ⟨ra, off, rfl, negative, (branchTarget_eq_iff wf s a).1 target⟩)
    · exact .inr (.inr jump)
  · rintro (⟨ra, off, rfl, zero, target⟩ | ⟨ra, off, rfl, negative, target⟩ | ⟨ra, rfl, rfl⟩)
    · exact brzTarget_eq_some.2 ⟨zero, (branchTarget_eq_iff wf s a).2 target⟩
    · exact brnTarget_eq_some.2 ⟨negative, (branchTarget_eq_iff wf s a).2 target⟩
    · rfl

/-- Settles O45: the instruction read back from the word has the term's effect. -/
theorem meaningSeesOnlyTheWord : Obligations.MeaningSeesOnlyTheWord := by
  intro i j s h
  obtain rfl := Except.ok.inj ((decodeWith_encodeWith encoding_admissible i).symm.trans h)
  rw [exec_eq, exec_eq, effectOf_ofFields]

/-- Settles O42: read off the four outcomes of a step. -/
theorem resultAgreesWithStep : Obligations.ResultAgreesWithStep := by
  intro s
  rcases step_outcomes s with ⟨hs, run, hr⟩ | ⟨op, hs, run, hr⟩ | ⟨d, hs, run, hr⟩ | ⟨d, hs, run, hr⟩
  · simp [hs, run, hr]
  · simp [hs, run, hr]
  · simp [hs, run, hr]
  · simp [hs, run, hr]

/-- Settles O43: a stop changes nothing the next step depends on. -/
theorem stoppedStaysStopped : Obligations.StoppedStaysStopped := by
  intro s h
  obtain ⟨hx, hpc, hpm, -⟩ := stateAfter_of_stop h
  exact ⟨stepResult_congr hx hpc hpm, stateAfter_stateAfter_of_stop h, hx, hpc⟩

/-- Settles O52: the word fetched, and the data access of each decoded instruction. -/
theorem portsAgreeWithStep : Obligations.PortsAgreeWithStep := by
  intro s
  refine ⟨portActivity_fetched s, ?_⟩
  rw [show s.pm[s.pc.toNat]? = s.fetch from rfl]
  rcases step_result_cases s with ⟨hf, -, ha, -⟩ | ⟨w, hf, -, hd, -, ha, -⟩ | ⟨w, i, hf, hd, -, ha, -⟩
  · simp only [portActivity, hf, ha, Option.map_none, endOfProgram_dm, and_self]
  · simp only [portActivity, hf, hd, ha, Option.map_some, faultedState_dm, and_self]
  · simp only [portActivity, hf, hd, ha, Option.map_some]
    cases i with
    | ld rd ra => exact ⟨rfl, exec_ld_reg (exec_eq _ s), rfl⟩
    | _ => exact ⟨rfl, rfl⟩

end Sys2Proof.Machine
end

section
/-! SUPPORT. Runs (40_step_cycle.md R104): a run ends with the first step that stops. -/

namespace Sys2Proof.Machine

/-- A run goes on after a step that goes on (R104). -/
theorem run_succ_of_continues {s : State} (h : (stepResult s).continues = true) (n : Nat) :
    run (n + 1) s = run n (stateAfter s) := by
  rw [run, if_pos h]

/-- A run ends with a step that stops (R104). -/
theorem run_succ_of_stop {s : State} (h : (stepResult s).continues = false) (n : Nat) :
    run (n + 1) s = .ended (stepResult s).outcome (stateAfter s) := by
  rw [run, h, if_neg Bool.false_ne_true]

/-- An ended run is some steps that went on and one that stopped (R104). -/
theorem run_ended_iff {n : Nat} {s t : State} {o : StepOutcome} :
    run n s = .ended o t ↔ ∃ j u, j < n ∧ run j s = .going u ∧ (stepResult u).continues = false ∧
      o = (stepResult u).outcome ∧ t = stateAfter u := by
  induction n generalizing s with
  | zero => exact ⟨nofun, fun ⟨_, _, hj, _⟩ => absurd hj (Nat.not_lt_zero _)⟩
  | succ n ih =>
    cases hc : (stepResult s).continues with
    | false =>
      rw [run_succ_of_stop hc]
      constructor
      · rintro ⟨⟩
        exact ⟨0, s, Nat.succ_pos n, rfl, hc, rfl, rfl⟩
      · rintro ⟨j, u, -, hgo, -, rfl, rfl⟩
        cases j with
        | zero =>
          obtain rfl : s = u := RunStatus.going.inj hgo
          rfl
        | succ j =>
          rw [run_succ_of_stop hc] at hgo
          nomatch hgo
    | true =>
      rw [run_succ_of_continues hc, ih]
      constructor
      · rintro ⟨j, u, hj, hgo, rest⟩
        exact ⟨j + 1, u, Nat.succ_lt_succ hj, (run_succ_of_continues hc j).trans hgo, rest⟩
      · rintro ⟨j, u, hj, hgo, stop, rest⟩
        cases j with
        | zero =>
          obtain rfl : s = u := RunStatus.going.inj hgo
          rw [hc] at stop
          nomatch stop
        | succ j => exact ⟨j, u, Nat.lt_of_succ_lt_succ hj, (run_succ_of_continues hc j).symm.trans hgo, stop, rest⟩

/-- The two normal ends (R104, R163). -/
theorem normalEnd_iff (o : StepOutcome) : o.normalEnd = true ↔ o = .endOfProgram ∨ o = .selfBranchHalt := by
  cases o <;> decide

/-- Settles O59: the stopping step that ended the run ends a longer one too. -/
theorem runEndsAtFirstStop : Obligations.RunEndsAtFirstStop := by
  intro n k s t o h
  obtain ⟨j, u, hj, hgo, stop, rfl, rfl⟩ := run_ended_iff.1 h
  obtain ⟨-, executed, halted, -, -⟩ := resultAgreesWithStep u
  refine ⟨run_ended_iff.2 ⟨j, u, by omega, hgo, stop, rfl, rfl⟩, halted.1 stop, fun ho => ?_, normalEnd_iff _,
    j, u, hj, hgo, stop, rfl, rfl⟩
  rw [executed.2 ho] at stop
  nomatch stop

end Sys2Proof.Machine
end
